-- ==== Sys2Proof/Word.lean ====
section
/-! DEFINITION. The word types of the LR4 TEA core and its five arithmetic primitives (00_scope.md R8, R9).
Every value is unsigned. -/

namespace Sys2Proof

/-- A byte, bits 7 down to 0 (R8). -/
abbrev Byte := BitVec 8

/-- A word, bits 31 down to 0 (R8). -/
abbrev Word := BitVec 32

/-- A command word, `cmd[15:0]` (30_encoding.md R70, R71). -/
abbrev CmdWord := BitVec 16

/-- A response word, `resp[15:0]` (30_encoding.md R70, R72). -/
abbrev RespWord := BitVec 16

/-- `(a + b) mod 2^32` (R9). -/
abbrev add32 (a b : Word) : Word := a + b

/-- `(a - b) mod 2^32` (R9). -/
abbrev sub32 (a b : Word) : Word := a - b

/-- `(a * 2^n) mod 2^32`: bits shifted out at the top are lost (R9). -/
abbrev shl32 (a : Word) (n : Nat) : Word := a <<< n

/-- `floor (a / 2^n)`: zeros enter at the top (R9). -/
abbrev shr32 (a : Word) (n : Nat) : Word := a >>> n

end Sys2Proof
end

