-- ==== Sys2Proof/Syntax.lean ====
section
/-! DEFINITION. The 15 commands of the opcode map (30_encoding.md R74), one constructor per row of
opcode_table.json, and the assembler line R78 writes a command as. -/

namespace Sys2Proof

/-- The commands. A B-form command carries its operand byte `imm8` (R71, R73); an N-form command carries nothing. -/
inductive Instr where
  | stat
  | clrf
  | kinit
  | kbyte (imm8 : Byte)
  | kfin
  | bclr
  | bpush (imm8 : Byte)
  | brew
  | bread
  | pad
  | unpad
  | ldb
  | stb
  | enc
  | dec
deriving DecidableEq, Repr

/-- The two forms of the command word (R71). -/
inductive Form where
  /-- no operand: the operand byte is 0x00 -/
  | n
  /-- one operand byte -/
  | b
deriving DecidableEq, Repr

/-- The mnemonics of R74. -/
inductive Mnemonic where
  | STAT | CLRF | KINIT | KBYTE | KFIN | BCLR | BPUSH | BREW | BREAD | PAD | UNPAD | LDB | STB | ENC | DEC
deriving DecidableEq, Repr

/-- B-form: KBYTE, BPUSH; N-form: every other command (R71). -/
def Mnemonic.form : Mnemonic → Form
  | .KBYTE | .BPUSH => .b
  | .STAT | .CLRF | .KINIT | .KFIN | .BCLR | .BREW | .BREAD | .PAD | .UNPAD | .LDB | .STB | .ENC | .DEC => .n

/-- The mnemonic of a command. -/
def Instr.mnemonic : Instr → Mnemonic
  | .stat => .STAT
  | .clrf => .CLRF
  | .kinit => .KINIT
  | .kbyte _ => .KBYTE
  | .kfin => .KFIN
  | .bclr => .BCLR
  | .bpush _ => .BPUSH
  | .brew => .BREW
  | .bread => .BREAD
  | .pad => .PAD
  | .unpad => .UNPAD
  | .ldb => .LDB
  | .stb => .STB
  | .enc => .ENC
  | .dec => .DEC

/-- The three spellings of an operand (R78). -/
inductive AsmOperand where
  /-- a decimal number -/
  | decimal (v : Nat)
  /-- a hexadecimal number -/
  | hexadecimal (v : Nat)
  /-- a character in single quotes -/
  | quoted (c : Char)
deriving DecidableEq, Repr

/-- The value an operand stands for: a character stands for its ASCII code (R78: `'h'` is 0x68). -/
def AsmOperand.value : AsmOperand → Nat
  | .decimal v     => v
  | .hexadecimal v => v
  | .quoted c      => c.toNat

/-- One line of the assembler text of R78: a mnemonic and the operand written after it, if any. Blanks and comments are
not part of it (log 11). -/
structure AsmLine where
  mnemonic : Mnemonic
  operand  : Option AsmOperand
deriving DecidableEq, Repr

/-- A line R78 writes a command as: the operand in hexadecimal. -/
def Instr.line : Instr → AsmLine
  | .kbyte b => ⟨.KBYTE, some (.hexadecimal b.toNat)⟩
  | .bpush b => ⟨.BPUSH, some (.hexadecimal b.toNat)⟩
  | .stat => ⟨.STAT, none⟩
  | .clrf => ⟨.CLRF, none⟩
  | .kinit => ⟨.KINIT, none⟩
  | .kfin => ⟨.KFIN, none⟩
  | .bclr => ⟨.BCLR, none⟩
  | .brew => ⟨.BREW, none⟩
  | .bread => ⟨.BREAD, none⟩
  | .pad => ⟨.PAD, none⟩
  | .unpad => ⟨.UNPAD, none⟩
  | .ldb => ⟨.LDB, none⟩
  | .stb => ⟨.STB, none⟩
  | .enc => ⟨.ENC, none⟩
  | .dec => ⟨.DEC, none⟩

end Sys2Proof
end

