-- ==== Sys2Proof/WellFormed.lean ====
section
/-! DEFINITION. When an assembler line is well formed (30_encoding.md R78), which command it stands for, and when a
command is well formed. -/

namespace Sys2Proof

/-- A number is 0 to 255, a character is a printable ASCII character, 0x20 to 0x7E (R78). -/
def AsmOperand.wellFormed : AsmOperand → Bool
  | .decimal v     => decide (v ≤ 255)
  | .hexadecimal v => decide (v ≤ 255)
  | .quoted c      => decide (0x20 ≤ c.toNat) && decide (c.toNat ≤ 0x7E)

/-- A B-form line has one well-formed operand; an N-form line has none (R78). -/
def AsmLine.wellFormed (l : AsmLine) : Bool :=
  match l.mnemonic.form, l.operand with
  | .n, none   => true
  | .n, some _ => false
  | .b, none   => false
  | .b, some o => o.wellFormed

/-- The command a well-formed line stands for; none for an ill-formed line (R78). -/
def AsmLine.assemble (l : AsmLine) : Option Instr :=
  if l.wellFormed then
    match l.mnemonic with
    | .STAT  => some .stat
    | .CLRF  => some .clrf
    | .KINIT => some .kinit
    | .KBYTE => l.operand.map fun o => .kbyte (BitVec.ofNat 8 o.value)
    | .KFIN  => some .kfin
    | .BCLR  => some .bclr
    | .BPUSH => l.operand.map fun o => .bpush (BitVec.ofNat 8 o.value)
    | .BREW  => some .brew
    | .BREAD => some .bread
    | .PAD   => some .pad
    | .UNPAD => some .unpad
    | .LDB   => some .ldb
    | .STB   => some .stb
    | .ENC   => some .enc
    | .DEC   => some .dec
  else none

/-- A command is well formed when its assembler line is. Its operand is a byte by its type, so every command is:
Sys2Proof/Laws/Encoding.lean proves it, and no statement carries it as a hypothesis. -/
def Instr.wellFormed (i : Instr) : Bool := i.line.wellFormed

end Sys2Proof
end

