-- ==== Sys2Proof/Decode.lean ====
section
/-! DEFINITION. The decoder, total on all 65536 command words (30_encoding.md R80), and the encoder, both from the
opcode map R74. -/

namespace Sys2Proof

/-- Why a word is no command (R80, 60_exceptions.md R183). -/
inductive IllegalWord where
  /-- R80 (1): `op` is none of the 15 values -/
  | undefinedOpcode (op : Byte)
  /-- R80 (2): an N-form opcode with a non-zero operand byte -/
  | operandNotZero (op : Byte)
deriving DecidableEq, Repr

/-- `op = cmd[15:8]` (R71). -/
def opField (w : CmdWord) : Byte := w.extractLsb' 8 8

/-- `imm8 = cmd[7:0]` (R71, R73). -/
def immField (w : CmdWord) : Byte := w.extractLsb' 0 8

/-- The N-form command `i`, whose operand byte must be 0x00 (R80 (2)). -/
def decodeN (i : Instr) (w : CmdWord) : Except IllegalWord Instr :=
  if immField w = 0x00#8 then .ok i else .error (.operandNotZero (opField w))

/-- The command a word stands for, or the reason it is illegal (R80). -/
def decode (w : CmdWord) : Except IllegalWord Instr :=
  match opField w with
  | 0x01#8 => decodeN .stat w
  | 0x02#8 => decodeN .clrf w
  | 0x10#8 => decodeN .kinit w
  | 0x11#8 => .ok (.kbyte (immField w))
  | 0x12#8 => decodeN .kfin w
  | 0x20#8 => decodeN .bclr w
  | 0x21#8 => .ok (.bpush (immField w))
  | 0x22#8 => decodeN .brew w
  | 0x23#8 => decodeN .bread w
  | 0x24#8 => decodeN .pad w
  | 0x25#8 => decodeN .unpad w
  | 0x30#8 => decodeN .ldb w
  | 0x31#8 => decodeN .stb w
  | 0x40#8 => decodeN .enc w
  | 0x41#8 => decodeN .dec w
  | op     => .error (.undefinedOpcode op)

/-- The `op` column of R74. -/
def Instr.opcode : Instr → Byte
  | .stat    => 0x01#8
  | .clrf    => 0x02#8
  | .kinit   => 0x10#8
  | .kbyte _ => 0x11#8
  | .kfin    => 0x12#8
  | .bclr    => 0x20#8
  | .bpush _ => 0x21#8
  | .brew    => 0x22#8
  | .bread   => 0x23#8
  | .pad     => 0x24#8
  | .unpad   => 0x25#8
  | .ldb     => 0x30#8
  | .stb     => 0x31#8
  | .enc     => 0x40#8
  | .dec     => 0x41#8

/-- The operand byte of the command word: `imm8`, 0x00 for an N-form command (R71, R78). -/
def Instr.operandByte : Instr → Byte
  | .kbyte b => b
  | .bpush b => b
  | .stat | .clrf | .kinit | .kfin | .bclr | .brew | .bread | .pad | .unpad | .ldb | .stb | .enc | .dec => 0x00#8

/-- The command word `{op, imm8}` (R71, R78). -/
def encode (i : Instr) : CmdWord := i.opcode ++ i.operandByte

/-- The `mask` column of R74: 0xFFFF for an N-form command, 0xFF00 for a B-form command. -/
def Instr.tableMask (i : Instr) : CmdWord :=
  match i.mnemonic.form with
  | .n => 0xFFFF#16
  | .b => 0xFF00#16

/-- The `match` column of R74. -/
def Instr.tableMatch : Instr → CmdWord
  | .stat    => 0x0100#16
  | .clrf    => 0x0200#16
  | .kinit   => 0x1000#16
  | .kbyte _ => 0x1100#16
  | .kfin    => 0x1200#16
  | .bclr    => 0x2000#16
  | .bpush _ => 0x2100#16
  | .brew    => 0x2200#16
  | .bread   => 0x2300#16
  | .pad     => 0x2400#16
  | .unpad   => 0x2500#16
  | .ldb     => 0x3000#16
  | .stb     => 0x3100#16
  | .enc     => 0x4000#16
  | .dec     => 0x4100#16

/-- The command word an opcode-table word of `nbits` bits stands for. A command is one whole 16-bit word with no byte
order (R70, R71), and the table numbers its bits as the spec does. -/
def tableWord (nbits w : Nat) : CmdWord := BitVec.ofNat 16 (w % 2 ^ nbits)

/-- What the decoder reads from an opcode-table word; none where the word is illegal. -/
def decodeTableWord (nbits w : Nat) : Option Instr :=
  match decode (tableWord nbits w) with
  | .ok i    => some i
  | .error _ => none

end Sys2Proof
end

