-- ==== Sys2Proof/Config.lean ====
section
/-! DEFINITION. What one implementation fixes: the buffer capacity BUF_CAP, the spec's one open parameter
(00_scope.md R7), and the hardwired constants (10_state.md R35). The spec leaves no value free (R14: "The model needs no
oracle"), so there is no opaque constant here. -/

namespace Sys2Proof

/-- The parameter of the machine. BUF_CAP must be a multiple of 8 and at least 8 (R7); holding the number of chunks
beyond the first makes every such capacity, and no other, a value of this type. -/
structure Config where
  extraChunks : Nat
deriving DecidableEq, Repr

/-- BUF_CAP, the capacity of BUF in bytes (R7). -/
def Config.bufCap (c : Config) : Nat := 8 * (c.extraChunks + 1)

/-- DELTA (R6, R35). -/
def delta : Word := 0x9E3779B9#32

/-- NROUNDS (R6, R35). -/
def nrounds : Nat := 32

/-- DSUM0 = DELTA * 32 mod 2^32 (R6, R35). -/
def dsum0 : Word := 0xC6EF3720#32

end Sys2Proof
end

