-- ==== Sys2Proof/Machine/State.lean ====
section
/-! DEFINITION. The state of the LR4 TEA core (10_state.md R20), plain data; the response codes, host events, faults and
refusals; and the state after reset (70_reset_and_hazards.md R200). -/

namespace Sys2Proof.Machine

open Sys2Proof

/-- The key registers K[0..3] (R21). -/
structure KeyFile where
  k0 : Word
  k1 : Word
  k2 : Word
  k3 : Word
deriving DecidableEq, Repr

/-- The block registers V[0], V[1] (R22). -/
structure Block where
  v0 : Word
  v1 : Word
deriving DecidableEq, Repr

/-- The eight bytes of a chunk, b0 at the lowest address (20_memory.md R53). -/
structure Chunk where
  b0 : Byte
  b1 : Byte
  b2 : Byte
  b3 : Byte
  b4 : Byte
  b5 : Byte
  b6 : Byte
  b7 : Byte
deriving DecidableEq, Repr

/-- PHASE, the sequencer phase (R25). -/
inductive Phase where
  | idle
  | enc
  | dec
deriving DecidableEq, Repr

/-- The response codes (60_exceptions.md R182). Codes 6 to 15 are never produced. -/
inductive Code where
  | ok
  | padfail
  | overflow
  | illegal
  | empty
  | seq
deriving DecidableEq, Repr

/-- What the host does at the inputs for one step, or for a command until it is accepted (70_reset_and_hazards.md R209).
DESIGN CHOICE, log 2. -/
inductive HostEvent where
  /-- `cmd_valid = 1` with this word, held until the core accepts it (R204) -/
  | command (w : CmdWord)
  /-- `rst = 1` (R200) -/
  | reset
  /-- neither: nothing presented for one step -/
  | quiet
deriving DecidableEq, Repr

/-- The contents of BUF: the bytes that have a value, addresses strictly rising. An unlisted address has no value
(10_state.md R34). -/
abbrev Memory := List Host.Cell

/-- The state of the machine: the registers and the memory of R20, the response port of R70, and the model's own `cfg`
and `inbox`. -/
structure State where
  /-- the parameter BUF_CAP (00_scope.md R7); the model's own field, log 1 -/
  cfg    : Config
  /-- K[0..3] (R21) -/
  k      : KeyFile
  /-- V[0], V[1] (R22) -/
  v      : Block
  /-- SUM (R23) -/
  sum    : Word
  /-- RC, 6 bits (R24) -/
  rc     : BitVec 6
  /-- PHASE (R25) -/
  phase  : Phase
  /-- KPOS, 5 bits (R27) -/
  kpos   : BitVec 5
  /-- KACC (R27) -/
  kacc   : Bool
  /-- KVALID (R27) -/
  kvalid : Bool
  /-- LEN (R28) -/
  len    : Nat
  /-- RP (R29) -/
  rp     : Nat
  /-- BIDX (R30) -/
  bidx   : Nat
  /-- PADERR (R31) -/
  paderr : Bool
  /-- OVF (R31) -/
  ovf    : Bool
  /-- ILL (R31) -/
  ill    : Bool
  /-- SEQERR (R31) -/
  seqerr : Bool
  /-- BUF (R34, 20_memory.md R50) -/
  buf    : Memory
  /-- the response port: the word on `resp` when the latest step raised `resp_valid` (30_encoding.md R70), log 3 -/
  resp   : Option RespWord
  /-- what the host does next, first event first; the model's own field, log 2 -/
  inbox  : List HostEvent
deriving DecidableEq, Repr

/-- Why the model stops. Both reasons are safe, and neither can arise in a state that meets the invariant
(Sys2Proof.Machine.Inv): log 6. -/
inductive Fault where
  /-- raised by Machine/Ops.lean's memRead: the byte at this address has no value (10_state.md R34). Safe. -/
  | byteWithoutValue (addr : Nat)
  /-- raised by Machine/Ops.lean's memWrite: this address is not below BUF_CAP (20_memory.md R50). Safe. -/
  | addressOutsideBuf (addr : Nat)
deriving DecidableEq, Repr

/-- Instructions the model gives no meaning. -/
inductive Refusal where
  /-- raised by exec's arm of an instruction with no meaning yet; no arm is left so. Safe. -/
  | notModelled (mnemonic : String)
deriving DecidableEq, Repr

/-- The outcome of a command or a step. -/
abbrev Result := Host.Outcome State Fault Refusal

/-- The state after a reset event of the machine with parameter `c`, the host doing nothing further: the Reset column of
R20 (R200). -/
def State.resetOf (c : Config) : State where
  cfg    := c
  k      := ⟨0#32, 0#32, 0#32, 0#32⟩
  v      := ⟨0#32, 0#32⟩
  sum    := 0#32
  rc     := 0#6
  phase  := .idle
  kpos   := 0#5
  kacc   := false
  kvalid := false
  len    := 0
  rp     := 0
  bidx   := 0
  paderr := false
  ovf    := false
  ill    := false
  seqerr := false
  buf    := []
  resp   := none
  inbox  := []

/-- The machine right after reset. BUF_CAP = 64 bytes here (DESIGN CHOICE, log 1): the spec fixes no capacity, and no
statement rests on this one. -/
def State.reset : State := State.resetOf ⟨7⟩

end Sys2Proof.Machine
end

