-- ==== Sys2Proof/Machine/Flags.lean ====
section
/-! DEFINITION. The four sticky flags (10_state.md R31), the computed status bits (R32) and STATUS (R33). -/

namespace Sys2Proof.Machine

open Sys2Proof

/-- Sets the sticky flag of a code, if it has one (60_exceptions.md R181, R182). -/
def setSticky (c : Code) (s : State) : State :=
  match c with
  | .padfail  => { s with paderr := true }
  | .overflow => { s with ovf := true }
  | .illegal  => { s with ill := true }
  | .seq      => { s with seqerr := true }
  | .ok       => s
  | .empty    => s

/-- Clears the four sticky flags (R31, 60_exceptions.md R191). -/
def clearSticky (s : State) : State :=
  { s with paderr := false, ovf := false, ill := false, seqerr := false }

/-- NEMPTY = 1 when LEN > 0 (R32). -/
def nempty (s : State) : Bool := decide (0 < s.len)

/-- MORE = 1 when 8*BIDX < LEN (R32). -/
def more (s : State) : Bool := decide (8 * s.bidx < s.len)

/-- STATUS = SEQERR, ILL, OVF, PADERR, MORE, NEMPTY, KACC, KVALID, bit 7 down to bit 0 (R33, 45_system.md R160). -/
def status (s : State) : Byte :=
  BitVec.ofBool s.seqerr ++ BitVec.ofBool s.ill ++ BitVec.ofBool s.ovf ++ BitVec.ofBool s.paderr ++
    BitVec.ofBool (more s) ++ BitVec.ofBool (nempty s) ++ BitVec.ofBool s.kacc ++ BitVec.ofBool s.kvalid

end Sys2Proof.Machine
end

