-- ==== Sys2Proof/Machine/Operands.lean ====
section
/-! DEFINITION. The operand byte (30_encoding.md R73), the four address forms (20_memory.md R65), the key-register file
and the big-endian byte order (R53). -/

namespace Sys2Proof.Machine

open Sys2Proof

/-- `zext_32` of a byte: never sign-extended (30_encoding.md R73). -/
def zext32 (b : Byte) : Word := b.setWidth 32

/-- K[i] (00_scope.md R10). -/
def KeyFile.get (k : KeyFile) (i : Fin 4) : Word :=
  match i with
  | 0 => k.k0
  | 1 => k.k1
  | 2 => k.k2
  | 3 => k.k3

/-- `K[i] <- w` (00_scope.md R10). -/
def KeyFile.set (k : KeyFile) (i : Fin 4) (w : Word) : KeyFile :=
  match i with
  | 0 => { k with k0 := w }
  | 1 => { k with k1 := w }
  | 2 => { k with k2 := w }
  | 3 => { k with k3 := w }

/-- The word being filled, `KPOS div 4` (10_state.md R27); used only with KPOS < 16. -/
def keyIndex (s : State) : Fin 4 := Fin.ofNat 4 (s.kpos.toNat / 4)

/-- Form (1), append: the address is LEN (R65). -/
def appendAddr (s : State) : Nat := s.len

/-- Form (2), sequential read: the address is RP (R65). -/
def seqAddr (s : State) : Nat := s.rp

/-- Form (3), block: the address of byte `j` of the chunk with index `i` (R54, R65). -/
def blockAddr (i j : Nat) : Nat := 8 * i + j

/-- Form (4), tail-relative: the address `LEN - j` (R65). -/
def tailAddr (s : State) (j : Nat) : Nat := s.len - j

/-- Packs a chunk: V[0] = {b0, b1, b2, b3}, V[1] = {b4, b5, b6, b7} (R53). -/
def packChunk (c : Chunk) : Block where
  v0 := c.b0 ++ c.b1 ++ c.b2 ++ c.b3
  v1 := c.b4 ++ c.b5 ++ c.b6 ++ c.b7

/-- Unpacks a block: b0 = V[0][31:24] down to b7 = V[1][7:0] (R53). -/
def unpackBlock (v : Block) : Chunk where
  b0 := v.v0.extractLsb' 24 8
  b1 := v.v0.extractLsb' 16 8
  b2 := v.v0.extractLsb' 8 8
  b3 := v.v0.extractLsb' 0 8
  b4 := v.v1.extractLsb' 24 8
  b5 := v.v1.extractLsb' 16 8
  b6 := v.v1.extractLsb' 8 8
  b7 := v.v1.extractLsb' 0 8

/-- The bytes of a chunk in address order. -/
def Chunk.bytes (c : Chunk) : List Byte := [c.b0, c.b1, c.b2, c.b3, c.b4, c.b5, c.b6, c.b7]

end Sys2Proof.Machine
end

