-- ==== Sys2Proof/Machine/Ops.lean ====
section
/-! DEFINITION. The shared operations: responses (30_encoding.md R72), errors (60_exceptions.md R181), and access to BUF
(20_memory.md R50 to R54). The spec has no trap: R190 and R191 put an error's report, `raise`, in the place of taking an
exception, and CLRF's `clearSticky` (Machine/Flags.lean) in the place of a return. -/

namespace Sys2Proof.Machine

open Sys2Proof

/-! ## Responses and errors -/

/-- The code's number (60_exceptions.md R182). -/
def Code.bits : Code → BitVec 4
  | .ok       => 0#4
  | .padfail  => 1#4
  | .overflow => 2#4
  | .illegal  => 3#4
  | .empty    => 4#4
  | .seq      => 5#4

/-- The response word `{code[3:0], 0b0000, data[7:0]}` (30_encoding.md R72). -/
def respWord (c : Code) (data : Byte) : RespWord := c.bits ++ 0#4 ++ data

/-- `respond(code, data)`: the response word goes to the response port (R72, R70). -/
def respond (c : Code) (data : Byte) (s : State) : State := { s with resp := some (respWord c data) }

/-- `raise <Error>`: the error's sticky flag is set, the response carries its code and no data, and nothing else changes
(60_exceptions.md R181). -/
def raise (c : Code) (s : State) : State := respond c 0x00#8 (setSticky c s)

/-! ## BUF -/

/-- The byte of an address; none where no byte has a value. -/
def Memory.get : Memory → Nat → Option Byte
  | [], _ => none
  | (x, b) :: m, a => if x = a then some b else Memory.get m a

/-- The memory with the byte of one address set; keeps the addresses strictly rising. -/
def Memory.set : Memory → Nat → Byte → Memory
  | [], a, v => [(a, v)]
  | (x, b) :: m, a, v =>
    if a < x then (a, v) :: (x, b) :: m
    else if a = x then (a, v) :: m
    else (x, b) :: Memory.set m a v

/-- The memory in which no address at or above `n` has a value. -/
def Memory.below (m : Memory) (n : Nat) : Memory := m.filter fun c => decide (c.1 < n)

/-- The canonical form: addresses strictly rising. An unlisted address has no value, so no entry equals what an unlisted
address reads as. -/
def Memory.wf : Memory → Bool
  | [] => true
  | [_] => true
  | c :: d :: m => decide (c.1 < d.1) && Memory.wf (d :: m)

/-- `MemRead(addr, 1)` (20_memory.md R51). -/
def memRead (s : State) (a : Nat) : Except Fault Byte :=
  match s.buf.get a with
  | some b => .ok b
  | none   => .error (.byteWithoutValue a)

/-- `MemWrite(addr, 1, v)` (20_memory.md R52). -/
def memWrite (a : Nat) (v : Byte) (s : State) : Except Fault State :=
  if a < s.cfg.bufCap then .ok { s with buf := s.buf.set a v } else .error (.addressOutsideBuf a)

/-- Writes bytes at consecutive addresses from `a` up, the lowest first. -/
def writeBytes : Nat → List Byte → State → Except Fault State
  | _, [], s => .ok s
  | a, b :: bs, s =>
    match memWrite a b s with
    | .ok t    => writeBytes (a + 1) bs t
    | .error f => .error f

/-- Byte `j` of the chunk with index `i`: `MemRead` below LEN, 0x00 at and above LEN (20_memory.md R54). -/
def blockByte (s : State) (i j : Nat) : Except Fault Byte :=
  if blockAddr i j < s.len then memRead s (blockAddr i j) else .ok 0x00#8

/-- `BlockRead(i)` (20_memory.md R54). -/
def blockRead (s : State) (i : Nat) : Except Fault Chunk := do
  let b0 ← blockByte s i 0
  let b1 ← blockByte s i 1
  let b2 ← blockByte s i 2
  let b3 ← blockByte s i 3
  let b4 ← blockByte s i 4
  let b5 ← blockByte s i 5
  let b6 ← blockByte s i 6
  let b7 ← blockByte s i 7
  return ⟨b0, b1, b2, b3, b4, b5, b6, b7⟩

/-- `BlockWrite(i, b0..b7)`: always all eight bytes (20_memory.md R54). -/
def blockWrite (i : Nat) (c : Chunk) (s : State) : Except Fault State := writeBytes (blockAddr i 0) c.bytes s

/-- LEN lowered to `n`; the bytes that leave the valid region have no value from then on (10_state.md R34, log 5). -/
def shrinkTo (n : Nat) (s : State) : State := { s with len := n, buf := s.buf.below n }

/-- The outcome of a step that a memory access decides. -/
def orFault {α : Type} (r : Except Fault α) (next : α → Result) : Result :=
  match r with
  | .ok x    => next x
  | .error f => .fault f

/-! ## The command port -/

/-- The state in which a command executes: the host's event is consumed, and the port shows no earlier response
(30_encoding.md R70: `resp_valid` is raised for one cycle). -/
def consume (rest : List HostEvent) (s : State) : State := { s with inbox := rest, resp := none }

/-- The reset event (70_reset_and_hazards.md R200, R202): every register at its reset value, from any state and phase; no
response. The parameter and what the host does next stay. -/
def applyReset (rest : List HostEvent) (s : State) : State := { State.resetOf s.cfg with inbox := rest }

end Sys2Proof.Machine
end

