-- ==== Sys2Proof/Machine/Cipher.lean ====
section
/-! DEFINITION. The tea_block_cipher: the round micro-steps, ENC and DEC, the sequencer's run, and the block functions
(42_cipher.md). -/

namespace Sys2Proof.Machine

open Sys2Proof

/-- The mixing function of both rounds (R111). -/
def mix (x ka kb s : Word) : Word := add32 (shl32 x 4) ka ^^^ add32 x s ^^^ add32 (shr32 x 5) kb

/-- encrypt_round on V with the sum already incremented: the V[0] line, then the V[1] line with the new V[0] (R112). -/
def encMix (k : KeyFile) (sum : Word) (v : Block) : Block :=
  let v0 := add32 v.v0 (mix v.v1 k.k0 k.k1 sum)
  ⟨v0, add32 v.v1 (mix v0 k.k2 k.k3 sum)⟩

/-- decrypt_round on V with the sum not yet decremented: the V[1] line, then the V[0] line with the restored V[1] (R113). -/
def decMix (k : KeyFile) (sum : Word) (v : Block) : Block :=
  let v1 := sub32 v.v1 (mix v.v0 k.k2 k.k3 sum)
  ⟨sub32 v.v0 (mix v1 k.k0 k.k1 sum), v1⟩

/-- The micro-step encrypt_round (R112). -/
def encryptRound (s : State) : State :=
  { s with sum := add32 s.sum delta, v := encMix s.k (add32 s.sum delta) s.v, rc := s.rc + 1 }

/-- The micro-step decrypt_round (R113). -/
def decryptRound (s : State) : State :=
  { s with sum := sub32 s.sum delta, v := decMix s.k s.sum s.v, rc := s.rc + 1 }

/-- After the micro-step that makes RC = 32: PHASE <- IDLE and the answer of the ENC or DEC that started the run (R116). -/
def endRun (s : State) : State :=
  if s.rc = BitVec.ofNat 6 nrounds then respond .ok 0x00#8 { s with phase := .idle } else s

/-- One micro-step of the sequencer; nothing while PHASE = IDLE (R116). -/
def microStep (s : State) : State :=
  match s.phase with
  | .idle => s
  | .enc  => endRun (encryptRound s)
  | .dec  => endRun (decryptRound s)

/-- Starts a run of micro-steps (R114, R115). -/
def startRun (p : Phase) (sum : Word) (s : State) : State := { s with sum := sum, rc := 0#6, phase := p }

/-- ENC (R114): starts the run; the 32nd micro-step answers (log 4). -/
def execEnc (s : State) : Result :=
  if s.kvalid = false then .next (raise .seq s) else .next (startRun .enc 0#32 s)

/-- DEC (R115): starts the run; the 32nd micro-step answers (log 4). -/
def execDec (s : State) : Result :=
  if s.kvalid = false then .next (raise .seq s) else .next (startRun .dec dsum0 s)

/-- Micro-steps until PHASE is IDLE, at most `fuel` of them. -/
def finishRun : Nat → State → State
  | 0, s => s
  | fuel + 1, s => if s.phase = .idle then s else finishRun fuel (microStep s)

/-! ## The block functions of R117, written over a block and a key alone -/

/-- `n` rounds of Encrypt's loop from the sum `sum` (R117). -/
def encryptLoop (k : KeyFile) : Nat → Word → Block → Block
  | 0, _, v => v
  | n + 1, sum, v => encryptLoop k n (add32 sum delta) (encMix k (add32 sum delta) v)

/-- `n` rounds of Decrypt's loop from the sum `sum` (R117). -/
def decryptLoop (k : KeyFile) : Nat → Word → Block → Block
  | 0, _, v => v
  | n + 1, sum, v => decryptLoop k n (sub32 sum delta) (decMix k sum v)

/-- `Encrypt((v0, v1), k)` (R117). -/
def encryptBlock (v : Block) (k : KeyFile) : Block := encryptLoop k nrounds 0#32 v

/-- `Decrypt((v0, v1), k)` (R117). -/
def decryptBlock (v : Block) (k : KeyFile) : Block := decryptLoop k nrounds dsum0 v

end Sys2Proof.Machine
end

