-- ==== Sys2Proof/Machine/Codec.lean ====
section
/-! DEFINITION. The byte_word_codec: BCLR, BPUSH, BREW, BREAD and the big_endian_packer's LDB, STB (44_codec.md). -/

namespace Sys2Proof.Machine

open Sys2Proof

/-- BCLR (R140). -/
def execBclr (s : State) : Result :=
  .next (respond .ok 0x00#8 { shrinkTo 0 s with rp := 0, bidx := 0 })

/-- BPUSH imm8 (R141). -/
def execBpush (imm8 : Byte) (s : State) : Result :=
  if s.len = s.cfg.bufCap then .next (raise .overflow s)
  else
    orFault (memWrite (appendAddr s) imm8 s) fun t =>
      .next (respond .ok 0x00#8 { t with len := s.len + 1 })

/-- BREW (R142). -/
def execBrew (s : State) : Result := .next (respond .ok 0x00#8 { s with rp := 0, bidx := 0 })

/-- BREAD (R143): EMPTY is an answer, not an error, and sets no flag. -/
def execBread (s : State) : Result :=
  if s.len ≤ s.rp then .next (respond .empty 0x00#8 s)
  else
    orFault (memRead s (seqAddr s)) fun b =>
      .next (respond .ok b { s with rp := s.rp + 1 })

/-- The number of bytes of the chunk at BIDX in the valid region: min(8, max(0, LEN - 8*BIDX)) (R144). -/
def chunkBytes (s : State) : Nat := min 8 (s.len - 8 * s.bidx)

/-- LDB (R144). -/
def execLdb (s : State) : Result :=
  orFault (blockRead s s.bidx) fun c =>
    .next (respond .ok (BitVec.ofNat 8 (chunkBytes s)) { s with v := packChunk c })

/-- STB (R145): SEQ is tested before OVERFLOW (60_exceptions.md R188). -/
def execStb (s : State) : Result :=
  if s.len < 8 * s.bidx then .next (raise .seq s)
  else if s.cfg.bufCap < 8 * s.bidx + 8 then .next (raise .overflow s)
  else
    orFault (blockWrite s.bidx (unpackBlock s.v) s) fun t =>
      .next (respond .ok 0x00#8 { t with len := max s.len (8 * s.bidx + 8), bidx := s.bidx + 1 })

end Sys2Proof.Machine
end

