-- ==== Sys2Proof/Machine/KeyDeriver.lean ====
section
/-! DEFINITION. The key deriver and its byte_to_word_accumulator: KINIT, KBYTE, KFIN (41_key_deriver.md). -/

namespace Sys2Proof.Machine

open Sys2Proof

/-- The accumulator step for one byte position (R100, R102): `K[i] <- shl32(K[i], 8) or zext_32(b)` with i = KPOS div 4,
`KPOS <- KPOS + 1`. -/
def accumulate (b : Byte) (s : State) : State :=
  { s with k := s.k.set (keyIndex s) (shl32 (s.k.get (keyIndex s)) 8 ||| zext32 b), kpos := s.kpos + 1 }

/-- KFIN's loop `while KPOS < 16`, the step with a zero byte (R103), at most `fuel` times. -/
def zeroFill : Nat → State → State
  | 0, s => s
  | fuel + 1, s => if s.kpos < 16#5 then zeroFill fuel (accumulate 0x00#8 s) else s

/-- KINIT (R101). -/
def execKinit (s : State) : Result :=
  .next (respond .ok 0x00#8
    { s with k := ⟨0#32, 0#32, 0#32, 0#32⟩, kpos := 0#5, kacc := true, kvalid := false })

/-- KBYTE imm8 (R102). -/
def execKbyte (imm8 : Byte) (s : State) : Result :=
  if s.kacc = false then .next (raise .seq s)
  else if s.kpos < 16#5 then .next (respond .ok 0x00#8 (accumulate imm8 s))
  else .next (respond .ok 0x00#8 s)

/-- KFIN (R103): KPOS is at most 16, so 16 turns of the loop are enough. -/
def execKfin (s : State) : Result :=
  if s.kacc = false then .next (raise .seq s)
  else .next (respond .ok (s.kpos.setWidth 8) { zeroFill 16 s with kacc := false, kvalid := true })

end Sys2Proof.Machine
end

