-- ==== Sys2Proof/Machine/Padding.lean ====
section
/-! DEFINITION. The padding half of padded_buffer_handler: PAD, UNPAD (43_padding.md). -/

namespace Sys2Proof.Machine

open Sys2Proof

/-- The padding value `8 - (L mod 8)`, 1 to 8 (R130). -/
def padValue (len : Nat) : Nat := 8 - len % 8

/-- PAD (R130). -/
def execPad (s : State) : Result :=
  if s.len = s.cfg.bufCap then .next (raise .overflow s)
  else
    let p := padValue s.len
    orFault (writeBytes (appendAddr s) (List.replicate p (BitVec.ofNat 8 p)) s) fun t =>
      .next (respond .ok (BitVec.ofNat 8 p) { t with len := s.len + p })

/-- Whether the bytes at `LEN - j`, for the `j` of the list in order, all equal `p` (R131). -/
def tailMatches (s : State) (p : Byte) : List Nat → Except Fault Bool
  | [] => .ok true
  | j :: js =>
    match memRead s (tailAddr s j) with
    | .ok b    => if b = p then tailMatches s p js else .ok false
    | .error f => .error f

/-- UNPAD (R131). -/
def execUnpad (s : State) : Result :=
  if s.len = 0 then .next (raise .padfail s)
  else
    orFault (memRead s (tailAddr s 1)) fun p =>
      if p = 0x00#8 then .next (raise .padfail s)
      else if 8 < p.toNat then .next (raise .padfail s)
      else if s.len < p.toNat then .next (raise .padfail s)
      else
        orFault (tailMatches s p (List.range' 1 p.toNat)) fun ok =>
          if ok then .next (respond .ok p (shrinkTo (s.len - p.toNat) s)) else .next (raise .padfail s)

end Sys2Proof.Machine
end

