-- ==== Sys2Proof/Machine/System.lean ====
section
/-! DEFINITION. The system commands STAT and CLRF (45_system.md). -/

namespace Sys2Proof.Machine

open Sys2Proof

/-- STAT (R160): answers STATUS and changes no state. -/
def execStat (s : State) : Result := .next (respond .ok (status s) s)

/-- CLRF (R161). -/
def execClrf (s : State) : Result := .next (respond .ok 0x00#8 (clearSticky s))

end Sys2Proof.Machine
end

