-- ==== Sys2Proof/Machine/Dispatch.lean ====
section
/-! DEFINITION. The meaning of each command, one arm per row of the opcode map (30_encoding.md R74). -/

namespace Sys2Proof.Machine

def exec (i : Instr) (s : State) : Host.Outcome State Fault Refusal :=
  match i with
  | .stat => Sys2Proof.Machine.execStat s
  | .clrf => Sys2Proof.Machine.execClrf s
  | .kinit => Sys2Proof.Machine.execKinit s
  | .kbyte imm8 => Sys2Proof.Machine.execKbyte imm8 s
  | .kfin => Sys2Proof.Machine.execKfin s
  | .bclr => Sys2Proof.Machine.execBclr s
  | .bpush imm8 => Sys2Proof.Machine.execBpush imm8 s
  | .brew => Sys2Proof.Machine.execBrew s
  | .bread => Sys2Proof.Machine.execBread s
  | .pad => Sys2Proof.Machine.execPad s
  | .unpad => Sys2Proof.Machine.execUnpad s
  | .ldb => Sys2Proof.Machine.execLdb s
  | .stb => Sys2Proof.Machine.execStb s
  | .enc => Sys2Proof.Machine.execEnc s
  | .dec => Sys2Proof.Machine.execDec s

end Sys2Proof.Machine
end

