-- ==== Sys2Proof/Machine/Sequencer.lean ====
section
/-! DEFINITION. The sequencer: the ports (30_encoding.md R70), accepting a command word (R80, R75), one sequencer step, and
a command carried to its end (42_cipher.md R117). -/

namespace Sys2Proof.Machine

open Sys2Proof

/-- `busy = 1` exactly when PHASE is ENC or DEC (R70). -/
def busy (s : State) : Bool := decide (s.phase ≠ .idle)

/-- `rst` in this step (70_reset_and_hazards.md R200). -/
def rstAsserted (s : State) : Bool := decide (s.inbox.head? = some .reset)

/-- `cmd_ready = 1` exactly when PHASE = IDLE and `rst = 0` (R70). -/
def cmdReady (s : State) : Bool := !busy s && !rstAsserted s

/-- `resp_valid` (R70). -/
def respValid (s : State) : Bool := s.resp.isSome

/-- An accepted word: the command it stands for executes, and an illegal word raises ILLEGAL (R80, R75). -/
def acceptWord (w : CmdWord) (s : State) : Result :=
  match decode w with
  | .ok i    => exec i s
  | .error _ => .next (raise .illegal s)

/-- One sequencer step. Reset takes effect at once in any phase (R200, R202). A command is accepted only when idle and is
held otherwise (R204). While a run is on, the core takes a micro-step (R116). An idle core with nothing presented waits
(60_exceptions.md R194). -/
def advance (s : State) : Result :=
  match s.inbox with
  | .reset :: rest     => .next (applyReset rest s)
  | .quiet :: rest     => .next (microStep (consume rest s))
  | .command w :: rest => if s.phase = .idle then acceptWord w (consume rest s) else .next (microStep (consume s.inbox s))
  | []                 => .next (microStep (consume [] s))

/-- The state in which the very next step accepts the opcode-table word `w`: it stands first at the command port, and the
core is idle. -/
def presentWord (nbits w : Nat) (s : State) : State :=
  { s with inbox := .command (tableWord nbits w) :: s.inbox, phase := .idle }

/-! ## A command carried to its end -/

/-- One outcome after another: the second starts in the state the first answers. -/
def thenDo (r : Result) (next : State → Result) : Result :=
  match r with
  | .next t    => next t
  | .fault f   => .fault f
  | .refused r => .refused r

/-- A command with all its micro-steps: from it, the state in which the host gives its next command (R117, R204). -/
def perform (i : Instr) (s : State) : Result :=
  thenDo (exec i { s with resp := none }) fun t => .next (finishRun nrounds t)

/-- Commands one after another, each to its end (R204). -/
def performAll : List Instr → State → Result
  | [], s      => .next s
  | i :: is, s => thenDo (perform i s) (performAll is)

/-- The bytes of the valid region in address order, the source's Byte Buffer (20_memory.md R50). -/
def region (s : State) : List Byte := (s.buf.below s.len).map Prod.snd

end Sys2Proof.Machine
end

