-- ==== Sys2Proof/Machine/Step.lean ====
section
/-! DEFINITION. One step of the machine, and the machine with a command word presented. -/

namespace Sys2Proof.Machine

/-- One sequencer step (70_reset_and_hazards.md R208). -/
def step (s : State) : Host.Outcome State Fault Refusal := Sys2Proof.Machine.advance s

/-- The opcode-table word stands at the command port of an idle core, so the very next step accepts it: log 2. -/
def State.withFetchWord (s : State) (nbits w : Nat) : State := Sys2Proof.Machine.presentWord nbits w s

end Sys2Proof.Machine
end

