-- ==== Sys2Proof/Machine/HostSequences.lean ====
section
/-! DEFINITION. The pseudo-commands (30_encoding.md R79) and the host's command sequences (46_pipeline.md R170 to R174).
They bind the host, not the core: the step function does not use them. -/

namespace Sys2Proof.Machine

open Sys2Proof

/-- KEYSTR, KEYHEX: KINIT, one KBYTE per byte, KFIN (R79, R170). -/
def keyString (bs : List Byte) : List Instr := [.kinit] ++ bs.map .kbyte ++ [.kfin]

/-- PUSHSTR, PUSHHEX: one BPUSH per byte (R79). -/
def pushBytes (bs : List Byte) : List Instr := bs.map .bpush

/-- ENCBLK (R79). -/
def encBlk : List Instr := [.ldb, .enc, .stb]

/-- DECBLK (R79). -/
def decBlk : List Instr := [.ldb, .dec, .stb]

/-- READN n (R79). -/
def readN (n : Nat) : List Instr := List.replicate n .bread

/-- The code field of the response on the port (R72). -/
def answerCode (s : State) : Option (BitVec 4) := s.resp.map fun r => r.extractLsb' 12 4

/-- The data field of the response on the port (R72). -/
def answerData (s : State) : Option Byte := s.resp.map fun r => r.extractLsb' 0 8

/-- Bit 3 of a STAT answer, MORE (10_state.md R33). -/
def answerMore (s : State) : Bool := (answerData s).any fun d => d.getLsbD 3

/-- `while MORE do is`: the host issues STAT and goes on while bit 3 of the answer is 1 (46_pipeline.md). At most `fuel`
turns: a caller gives more than the turns there can be. -/
def whileMore : Nat → List Instr → State → Result
  | 0, _, s => .next s
  | fuel + 1, is, s =>
    thenDo (perform .stat s) fun t =>
      if answerMore t then thenDo (performAll is t) (whileMore fuel is) else .next t

/-- More turns than the chunk loop can take: BIDX grows at every turn and `8*BIDX < LEN <= BUF_CAP` (44_codec.md R147). -/
def loopFuel (s : State) : Nat := s.cfg.bufCap / 8 + 1

/-- The encrypt path on input `x`, up to the read-out (R171, R174). -/
def encryptPath (x : List Byte) (s : State) : Result :=
  thenDo (performAll ([.bclr] ++ pushBytes x ++ if x.length = 0 then [] else [.pad]) s) (whileMore (loopFuel s) encBlk)

/-- The decrypt path on input `x`, up to the read-out (R173, R174): a PADFAIL answer does not stop it. -/
def decryptPath (x : List Byte) (s : State) : Result :=
  thenDo (performAll ([.bclr] ++ pushBytes x) s) fun t =>
    thenDo (whileMore (loopFuel s) decBlk t) (performAll (if x.length = 0 then [] else [.unpad]))

/-- BREAD until the answer is EMPTY; the data bytes of the OK answers in order (R172). At most `fuel` reads. -/
def readBytes : Nat → State → List Byte
  | 0, _ => []
  | fuel + 1, s =>
    match perform .bread s with
    | .next t =>
      if answerCode t = some Code.ok.bits then (answerData t).toList ++ readBytes fuel t else []
    | .fault _   => []
    | .refused _ => []

/-- Reading the result out: BREW, then BREAD until EMPTY (R172). -/
def readOut (s : State) : List Byte :=
  match perform .brew s with
  | .next t    => readBytes (s.cfg.bufCap + 1) t
  | .fault _   => []
  | .refused _ => []

end Sys2Proof.Machine
end

