-- ==== Sys2Proof/Safety.lean ====
section
/-! DEFINITION. The invariants of 10_state.md R38, and the terms the statements use: a run of steps, a valid padding, the
ECB form of a buffer (46_pipeline.md R176). -/

namespace Sys2Proof.Machine

open Sys2Proof

/-- R38(d) and R34: exactly the addresses of the valid region have a value, each listed once, in rising order. -/
abbrev BufInv (s : State) : Prop := s.buf.map Prod.fst = List.range s.len

/-- R38(a): the ranges of LEN, RP and BIDX. -/
abbrev RangeInv (s : State) : Prop := s.len ≤ s.cfg.bufCap ∧ s.rp ≤ s.cfg.bufCap ∧ s.bidx ≤ s.cfg.bufCap / 8

/-- R38(b): KPOS is at most 16; KACC and KVALID are never both 1; KVALID = 1 implies KPOS = 16. -/
abbrev KeyInv (s : State) : Prop :=
  s.kpos ≤ 16#5 ∧ (s.kacc = true → s.kvalid = false) ∧ (s.kvalid = true → s.kpos = 16#5)

/-- R38(c) and the sum schedule 42_cipher.md R120. Idle: RC is 0 or 32, and SUM is 0 or DSUM0. In a run: RC is below 32,
there is a key, and SUM is the schedule's value after RC rounds. -/
abbrev RunInv (s : State) : Prop :=
  (s.phase = .idle → (s.rc = 0#6 ∨ s.rc = 32#6) ∧ (s.sum = 0#32 ∨ s.sum = dsum0)) ∧
  (s.phase = .enc → s.rc < 32#6 ∧ s.kvalid = true ∧ s.sum = BitVec.ofNat 32 s.rc.toNat * delta) ∧
  (s.phase = .dec → s.rc < 32#6 ∧ s.kvalid = true ∧ s.sum = BitVec.ofNat 32 (32 - s.rc.toNat) * delta)

/-- The invariant of the machine (R38). It rules out the states no run reaches. -/
abbrev Inv (s : State) : Prop := BufInv s ∧ RangeInv s ∧ KeyInv s ∧ RunInv s

/-- 41_key_deriver.md R102(b): while a derivation is open, word i holds no more bytes than the cursor has given it, so the
byte a further step shifts out of the word is 0x00. -/
abbrev KeyFilling (s : State) : Prop :=
  s.kacc = true → ∀ i : Fin 4, (s.k.get i).toNat < 2 ^ (8 * min 4 (s.kpos.toNat - 4 * i.val))

/-- `p` is a valid padding of the buffer: 1 to 8, not longer than the buffer, and each of the last `p` bytes is `p`
(43_padding.md R131). -/
def ValidPadding (s : State) (p : Nat) : Prop :=
  1 ≤ p ∧ p ≤ 8 ∧ p ≤ s.len ∧ ∀ j, 1 ≤ j → j ≤ p → s.buf.get (s.len - j) = some (BitVec.ofNat 8 p)

/-- Byte `p` of a key string, 0x00 where the string has none (41_key_deriver.md R104). -/
def keyByte (bs : List Byte) (p : Nat) : Byte := bs.getD p 0x00#8

/-- `K[i] = {byte(4i), byte(4i+1), byte(4i+2), byte(4i+3)}` (41_key_deriver.md R104). -/
def keyWord (bs : List Byte) (i : Nat) : Word :=
  keyByte bs (4 * i) ++ keyByte bs (4 * i + 1) ++ keyByte bs (4 * i + 2) ++ keyByte bs (4 * i + 3)

/-- `n` steps of the machine. -/
def steps : Nat → State → Result
  | 0, s => .next s
  | n + 1, s => thenDo (step s) (steps n)

/-- What the host presents next is not a reset and not a step of silence: nothing, or a command. -/
def CommandsNext (inbox : List HostEvent) : Prop := inbox = [] ∨ ∃ w rest, inbox = .command w :: rest

/-- A block function on every full chunk of a byte string, each chunk independently (46_pipeline.md R176). -/
def ecb (f : Block → Block) : List Byte → List Byte
  | b0 :: b1 :: b2 :: b3 :: b4 :: b5 :: b6 :: b7 :: bs =>
    (unpackBlock (f (packChunk ⟨b0, b1, b2, b3, b4, b5, b6, b7⟩))).bytes ++ ecb f bs
  | _ => []

/-- A byte string with its padding appended (43_padding.md R130). -/
def padded (x : List Byte) : List Byte := x ++ List.replicate (8 - x.length % 8) (BitVec.ofNat 8 (8 - x.length % 8))

/-- A byte string filled with 0x00 to a multiple of 8 (44_codec.md R144(b)). -/
def zeroFilled (x : List Byte) : List Byte := x ++ List.replicate (8 * ((x.length + 7) / 8) - x.length) 0x00#8

/-- A byte string ends in a valid padding of `p` bytes (43_padding.md R131). -/
def EndsInPadding (y : List Byte) (p : Nat) : Prop :=
  1 ≤ p ∧ p ≤ 8 ∧ p ≤ y.length ∧ y.drop (y.length - p) = List.replicate p (BitVec.ofNat 8 p)

end Sys2Proof.Machine
end

