-- ==== Sys2Proof/Certificates/Slice0/Obligations.lean ====
section
/-! DEFINITION. The statements for the provers. Each docstring names the rule of spec/ it formalises. -/

open Sys2Proof Sys2Proof.Machine

/-! ## Encoding -/

/-- 95_test_vectors.md section 6, the words written out from 30_encoding.md R74: what they decode to. -/
def Obligations.WrittenOutWordsDecode : Prop :=
  decode 0x0100#16 = .ok .stat ∧ decode 0x0200#16 = .ok .clrf ∧ decode 0x1000#16 = .ok .kinit ∧
  decode 0x11A5#16 = .ok (.kbyte 0xA5#8) ∧ decode 0x1200#16 = .ok .kfin ∧ decode 0x2000#16 = .ok .bclr ∧
  decode 0x2168#16 = .ok (.bpush 0x68#8) ∧ decode 0x2200#16 = .ok .brew ∧ decode 0x2300#16 = .ok .bread ∧
  decode 0x2400#16 = .ok .pad ∧ decode 0x2500#16 = .ok .unpad ∧ decode 0x3000#16 = .ok .ldb ∧
  decode 0x3100#16 = .ok .stb ∧ decode 0x4000#16 = .ok .enc ∧ decode 0x4100#16 = .ok .dec ∧
  decode 0x0000#16 = .error (.undefinedOpcode 0x00#8) ∧ decode 0xFFFF#16 = .error (.undefinedOpcode 0xFF#8) ∧
  decode 0x0101#16 = .error (.operandNotZero 0x01#8) ∧ decode 0x12FF#16 = .error (.operandNotZero 0x12#8)

/-- 30_encoding.md R74: a word is a command exactly when it matches the command's row, `(w and mask) = match`. -/
def Obligations.DecodeFollowsMaskAndMatch : Prop :=
  ∀ (w : CmdWord) (i : Instr),
    (w &&& i.tableMask = i.tableMatch) ↔ ∃ j, decode w = .ok j ∧ j.mnemonic = i.mnemonic

/-- 30_encoding.md R80, R71, R78: decoding and encoding agree in both directions, so every word has at most one meaning and
no bit of a word is dropped. -/
def Obligations.DecodeAndEncodeAgree : Prop :=
  ∀ (w : CmdWord) (i : Instr), decode w = .ok i ↔ w = encode i

/-- 30_encoding.md R80 (1), (2): which words are illegal, and under which name the decoder rejects them. -/
def Obligations.IllegalWordsAreExactlyThese : Prop :=
  ∀ w : CmdWord,
    let op := w.extractLsb' 8 8
    let imm8 := w.extractLsb' 0 8
    let defined := op ∈ [0x01#8, 0x02#8, 0x10#8, 0x11#8, 0x12#8, 0x20#8, 0x21#8, 0x22#8, 0x23#8, 0x24#8, 0x25#8,
      0x30#8, 0x31#8, 0x40#8, 0x41#8]
    (decode w = .error (.undefinedOpcode op) ↔ ¬ defined) ∧
    (decode w = .error (.operandNotZero op) ↔ defined ∧ op ≠ 0x11#8 ∧ op ≠ 0x21#8 ∧ imm8 ≠ 0x00#8) ∧
    ((∃ i, decode w = .ok i) ↔ defined ∧ (op = 0x11#8 ∨ op = 0x21#8 ∨ imm8 = 0x00#8))

/-- 30_encoding.md R78: a well-formed assembler line stands for the command of its mnemonic whose operand byte has the
value written; no other line stands for a command; and every command is written by a line. -/
def Obligations.WellFormedLinesAssemble : Prop :=
  (∀ l : AsmLine,
    (l.wellFormed = true → ∃ i, l.assemble = some i ∧ i.mnemonic = l.mnemonic ∧
      ∀ o, l.operand = some o → (encode i).extractLsb' 0 8 = BitVec.ofNat 8 o.value ∧ o.value < 256) ∧
    (l.wellFormed = false → l.assemble = none)) ∧
  (∀ i : Instr, i.line.wellFormed = true ∧ i.line.assemble = some i)

/-! ## The sequencer step -/

/-- 30_encoding.md R80 with 10_state.md R26: an idle core accepts the word at the command port, and the step is the
decoded command's meaning. The step's own part (the host's event consumed, the response port cleared) is the model's
reading of R70: logs 2 and 3. -/
def Obligations.StepRunsTheDecodedCommand : Prop :=
  ∀ (s : State) (w : CmdWord) (rest : List HostEvent) (i : Instr),
    s.phase = .idle → s.inbox = .command w :: rest → decode w = .ok i →
      step s = exec i { s with inbox := rest, resp := none }

/-- The word withFetchWord places is the one the very next step accepts (log 2). -/
def Obligations.ThePresentedWordRunsNext : Prop :=
  ∀ (s : State) (i : Instr),
    step (s.withFetchWord 16 (encode i).toNat) = exec i { s with phase := .idle, resp := none }

/-- 30_encoding.md R75: an illegal word is answered ILLEGAL, sets ILL and changes nothing else. -/
def Obligations.StepRefusesIllegalWords : Prop :=
  ∀ (s : State) (w : CmdWord) (rest : List HostEvent) (e : IllegalWord),
    s.phase = .idle → s.inbox = .command w :: rest → decode w = .error e →
      step s = .next { s with inbox := rest, ill := true, resp := some 0x3000#16 }

/-- 42_cipher.md R116 and 70_reset_and_hazards.md R204: while a run is on, a presented command stays presented, and the
step is one round micro-step. What the host holds stands in `inbox` (log 2). -/
def Obligations.StepHoldsCommandsDuringARun : Prop :=
  ∀ s : State, s.phase ≠ .idle → CommandsNext s.inbox →
    ∃ t, step s = .next t ∧ t = microStep { s with resp := none } ∧ t.inbox = s.inbox

/-- 70_reset_and_hazards.md R200, R202: a reset takes effect in any state and phase; every register has its reset value, no
byte of BUF has a value (log 5), and there is no response. The reset event stands in `inbox` (log 2). -/
def Obligations.StepResetsInAnyPhase : Prop :=
  ∀ (s : State) (rest : List HostEvent), s.inbox = .reset :: rest →
    ∃ t, step s = .next t ∧
      t.k = ⟨0#32, 0#32, 0#32, 0#32⟩ ∧ t.v = ⟨0#32, 0#32⟩ ∧ t.sum = 0#32 ∧ t.rc = 0#6 ∧ t.phase = .idle ∧ t.kpos = 0#5 ∧
      t.kacc = false ∧ t.kvalid = false ∧ t.len = 0 ∧ t.rp = 0 ∧ t.bidx = 0 ∧ t.paderr = false ∧ t.ovf = false ∧
      t.ill = false ∧ t.seqerr = false ∧ (∀ a, t.buf.get a = none) ∧ t.resp = none ∧ t.cfg = s.cfg ∧ t.inbox = rest

/-- 10_state.md R20 (the Reset column) and 70_reset_and_hazards.md R200: the register values and STATUS after reset, for
every capacity. That no byte of BUF has a value is the model's choice (R34, log 5: R20 says BUF is not reset, and R200 lets
it be kept or forgotten); the empty response port is the model's reading of R200 (log 3). -/
def Obligations.ResetValues : Prop :=
  ∀ c : Config,
    let s := State.resetOf c
    s.k = ⟨0#32, 0#32, 0#32, 0#32⟩ ∧ s.v = ⟨0#32, 0#32⟩ ∧ s.sum = 0#32 ∧ s.rc = 0#6 ∧ s.phase = .idle ∧ s.kpos = 0#5 ∧
    s.kacc = false ∧ s.kvalid = false ∧ s.len = 0 ∧ s.rp = 0 ∧ s.bidx = 0 ∧ s.paderr = false ∧ s.ovf = false ∧
    s.ill = false ∧ s.seqerr = false ∧ (∀ a, s.buf.get a = none) ∧ s.resp = none ∧ status s = 0x00#8

/-- 60_exceptions.md R194, 70_reset_and_hazards.md R209: an idle core with nothing presented keeps all its state (the
response port no longer shows a response, log 3). -/
def Obligations.IdleCoreKeepsItsState : Prop :=
  ∀ s : State, s.phase = .idle →
    (s.inbox = [] → step s = .next { s with resp := none }) ∧
    (∀ rest, s.inbox = .quiet :: rest → step s = .next { s with inbox := rest, resp := none })

/-- 30_encoding.md R70, 70_reset_and_hazards.md R209: a step raises a response exactly when it ends a command: the command
it accepts, if that needs no run, or the run's ENC or DEC (logs 2, 3, 4). -/
def Obligations.OneResponseWhenACommandEnds : Prop :=
  ∀ s t : State, step s = .next t →
    (t.resp.isSome = true ↔
      (t.phase = .idle ∧ ((s.phase = .idle ∧ ∃ w rest, s.inbox = .command w :: rest) ∨
        (s.phase ≠ .idle ∧ s.inbox.head? ≠ some .reset))))

/-! ## System commands -/

/-- 45_system.md R160, 10_state.md R32, R33: STAT answers the eight bits of STATUS and changes nothing. -/
def Obligations.StatAnswersStatus : Prop :=
  encode .stat = 0x0100#16 ∧ ∀ s : State, exec .stat s = .next { s with
    resp := some (0x00#8 ++
      (BitVec.ofBool s.seqerr ++ BitVec.ofBool s.ill ++ BitVec.ofBool s.ovf ++ BitVec.ofBool s.paderr ++
        BitVec.ofBool (decide (8 * s.bidx < s.len)) ++ BitVec.ofBool (decide (s.len > 0)) ++
        BitVec.ofBool s.kacc ++ BitVec.ofBool s.kvalid)) }

/-- 45_system.md R161: CLRF clears the four sticky flags and changes nothing else. -/
def Obligations.ClrfClearsTheStickyFlags : Prop :=
  encode .clrf = 0x0200#16 ∧ ∀ s : State, exec .clrf s = .next { s with
    paderr := false, ovf := false, ill := false, seqerr := false, resp := some 0x0000#16 }

/-! ## Key deriver -/

/-- 41_key_deriver.md R101: KINIT zeroes K and KPOS and opens a derivation; nothing else changes. -/
def Obligations.KinitOpensADerivation : Prop :=
  encode .kinit = 0x1000#16 ∧ ∀ s : State, exec .kinit s = .next { s with
    k := ⟨0#32, 0#32, 0#32, 0#32⟩, kpos := 0#5, kacc := true, kvalid := false, resp := some 0x0000#16 }

/-- 41_key_deriver.md R102: the refusal, the accumulator step on word `KPOS div 4`, and the dropped byte. -/
def Obligations.KbyteAccumulates : Prop :=
  (∀ imm8 : Byte, encode (.kbyte imm8) = 0x11#8 ++ imm8) ∧ ∀ (imm8 : Byte) (s : State),
    (s.kacc = false → exec (.kbyte imm8) s = .next { s with seqerr := true, resp := some 0x5000#16 }) ∧
    (s.kacc = true → s.kpos.toNat < 16 → ∃ t, exec (.kbyte imm8) s = .next t ∧
      (∀ i : Fin 4, t.k.get i =
        if i.val = s.kpos.toNat / 4 then (s.k.get i <<< 8) ||| imm8.setWidth 32 else s.k.get i) ∧
      t = { s with k := t.k, kpos := s.kpos + 1, resp := some 0x0000#16 }) ∧
    (s.kacc = true → ¬ s.kpos.toNat < 16 → exec (.kbyte imm8) s = .next { s with resp := some 0x0000#16 })

/-- 41_key_deriver.md R103, in closed form: every byte position of word `i` that the cursor has not reached is a shift by 8
bits with a zero byte. The range of KPOS is 10_state.md R20's. -/
def Obligations.KfinZeroFills : Prop :=
  ∀ s : State,
    (s.kacc = false → exec .kfin s = .next { s with seqerr := true, resp := some 0x5000#16 }) ∧
    (s.kacc = true → s.kpos.toNat ≤ 16 → ∃ t, exec .kfin s = .next t ∧
      (∀ i : Fin 4, t.k.get i = s.k.get i <<< (8 * min 4 (4 * (i.val + 1) - s.kpos.toNat))) ∧
      t = { s with k := t.k, kpos := 16#5, kacc := false, kvalid := true, resp := some (s.kpos.setWidth 16) })

/-- 41_key_deriver.md R104: the closed form of a derivation, for a key string of any length (log 10). -/
def Obligations.KeyDerivationClosedForm : Prop :=
  ∀ (s : State) (bs : List Byte), s.phase = .idle →
    performAll (keyString bs) s = .next { s with
      k := ⟨keyWord bs 0, keyWord bs 1, keyWord bs 2, keyWord bs 3⟩,
      kpos := 16#5, kacc := false, kvalid := true, resp := some (BitVec.ofNat 16 (min bs.length 16)) }

/-- 41_key_deriver.md R105: key strings that agree on positions 0 to 15 (a missing position counted as 0x00) give the same
key, from any two states (log 10). -/
def Obligations.OnlySixteenBytesInfluenceTheKey : Prop :=
  ∀ (s t : State) (bs cs : List Byte), s.phase = .idle → t.phase = .idle →
    (∀ p < 16, bs.getD p 0x00#8 = cs.getD p 0x00#8) →
      ∃ s' t', performAll (keyString bs) s = .next s' ∧ performAll (keyString cs) t = .next t' ∧ s'.k = t'.k

/-- 41_key_deriver.md R102(b): no step shifts a key byte out of a word. -/
def Obligations.StepKeepsKeyFilling : Prop :=
  ∀ s t : State, KeyFilling s → step s = .next t → KeyFilling t

/-! ## Cipher -/

/-- 42_cipher.md R112, R111, R116: encrypt_round, line by line, and the end of the run at RC = 32. -/
def Obligations.EncryptRoundMicroStep : Prop :=
  ∀ s : State, s.phase = .enc →
    let sum := s.sum + 0x9E3779B9#32
    let v0 := s.v.v0 + (((s.v.v1 <<< 4) + s.k.k0) ^^^ (s.v.v1 + sum) ^^^ ((s.v.v1 >>> 5) + s.k.k1))
    let v1 := s.v.v1 + (((v0 <<< 4) + s.k.k2) ^^^ (v0 + sum) ^^^ ((v0 >>> 5) + s.k.k3))
    microStep s = if s.rc + 1 = 32#6
      then { s with sum := sum, v := ⟨v0, v1⟩, rc := 32#6, phase := .idle, resp := some 0x0000#16 }
      else { s with sum := sum, v := ⟨v0, v1⟩, rc := s.rc + 1 }

/-- 42_cipher.md R113, R111, R116: decrypt_round, line by line, and the end of the run at RC = 32. -/
def Obligations.DecryptRoundMicroStep : Prop :=
  ∀ s : State, s.phase = .dec →
    let v1 := s.v.v1 - (((s.v.v0 <<< 4) + s.k.k2) ^^^ (s.v.v0 + s.sum) ^^^ ((s.v.v0 >>> 5) + s.k.k3))
    let v0 := s.v.v0 - (((v1 <<< 4) + s.k.k0) ^^^ (v1 + s.sum) ^^^ ((v1 >>> 5) + s.k.k1))
    let sum := s.sum - 0x9E3779B9#32
    microStep s = if s.rc + 1 = 32#6
      then { s with sum := sum, v := ⟨v0, v1⟩, rc := 32#6, phase := .idle, resp := some 0x0000#16 }
      else { s with sum := sum, v := ⟨v0, v1⟩, rc := s.rc + 1 }

/-- 42_cipher.md R113(c): decrypt_round undoes encrypt_round on V and SUM, and encrypt_round undoes decrypt_round. -/
def Obligations.RoundsAreInverse : Prop :=
  ∀ s : State,
    (decryptRound (encryptRound s)).v = s.v ∧ (decryptRound (encryptRound s)).sum = s.sum ∧
    (encryptRound (decryptRound s)).v = s.v ∧ (encryptRound (decryptRound s)).sum = s.sum

/-- 42_cipher.md R114: ENC without a key is refused; with a key it starts a run and changes SUM, RC and PHASE only. -/
def Obligations.EncStartsARun : Prop :=
  ∀ s : State,
    (s.kvalid = false → exec .enc s = .next { s with seqerr := true, resp := some 0x5000#16 }) ∧
    (s.kvalid = true → exec .enc s = .next { s with sum := 0#32, rc := 0#6, phase := .enc })

/-- 42_cipher.md R115: DEC without a key is refused; with a key it starts a run and changes SUM, RC and PHASE only. -/
def Obligations.DecStartsARun : Prop :=
  ∀ s : State,
    (s.kvalid = false → exec .dec s = .next { s with seqerr := true, resp := some 0x5000#16 }) ∧
    (s.kvalid = true → exec .dec s = .next { s with sum := 0xC6EF3720#32, rc := 0#6, phase := .dec })

/-- 42_cipher.md R114(d), R116, R117: the step that accepts ENC and 32 further steps end with V = Encrypt(V, K),
SUM = 0xC6EF3720, RC = 32, PHASE = IDLE and the response 0x0000, whatever command the host holds meanwhile; nothing else
changes (logs 2, 4). -/
def Obligations.EncCompletesInThirtyTwoMicroSteps : Prop :=
  ∀ (s : State) (rest : List HostEvent),
    s.phase = .idle → s.kvalid = true → s.inbox = .command 0x4000#16 :: rest → CommandsNext rest →
      steps 33 s = .next { s with
        v := encryptBlock s.v s.k, sum := 0xC6EF3720#32, rc := 32#6, resp := some 0x0000#16, inbox := rest }

/-- 42_cipher.md R115(c), R116, R117: the same for DEC, with V = Decrypt(V, K) and SUM = 0 (logs 2, 4). -/
def Obligations.DecCompletesInThirtyTwoMicroSteps : Prop :=
  ∀ (s : State) (rest : List HostEvent),
    s.phase = .idle → s.kvalid = true → s.inbox = .command 0x4100#16 :: rest → CommandsNext rest →
      steps 33 s = .next { s with
        v := decryptBlock s.v s.k, sum := 0#32, rc := 32#6, resp := some 0x0000#16, inbox := rest }

/-- 42_cipher.md R120: in a run of ENC, after r rounds RC = r and SUM = r * DELTA; in a run of DEC, after j rounds RC = j
and SUM = (32 - j) * DELTA; so decrypt round j uses the sum of encrypt round 33 - j (logs 2, 4). -/
def Obligations.SumSchedule : Prop :=
  ∀ (s : State) (rest : List HostEvent) (r : Nat),
    s.phase = .idle → s.kvalid = true → CommandsNext rest → r ≤ 32 →
      (s.inbox = .command 0x4000#16 :: rest → ∃ t, steps (r + 1) s = .next t ∧
        t.rc = BitVec.ofNat 6 r ∧ t.sum = BitVec.ofNat 32 r * 0x9E3779B9#32) ∧
      (s.inbox = .command 0x4100#16 :: rest → ∃ t, steps (r + 1) s = .next t ∧
        t.rc = BitVec.ofNat 6 r ∧ t.sum = BitVec.ofNat 32 (32 - r) * 0x9E3779B9#32)

/-- 42_cipher.md R118: for any block B and key K, Decrypt(Encrypt(B, K), K) = B, and the converse. -/
def Obligations.DecryptInvertsEncrypt : Prop :=
  ∀ (v : Block) (k : KeyFile),
    decryptBlock (encryptBlock v k) k = v ∧ encryptBlock (decryptBlock v k) k = v

/-- 42_cipher.md R117: a command carried to its end, the form in which the sequences of commands below are stated, is what
the steps of the machine do; an ENC or DEC that runs takes 33 of them, every other command one (logs 2, 4, 10). -/
def Obligations.StepsCarryOutACommand : Prop :=
  ∀ (s : State) (i : Instr) (rest : List HostEvent),
    s.phase = .idle → s.inbox = .command (encode i) :: rest → CommandsNext rest →
      steps (if (i = .enc ∨ i = .dec) ∧ s.kvalid = true then 33 else 1) s = perform i { s with inbox := rest }

/-! ## Padding -/

/-- 43_padding.md R130: PAD on a full buffer is refused; otherwise 8 - (L mod 8) bytes of that value are appended and
nothing else changes; LEN is then a positive multiple of 8, and it fits. -/
def Obligations.PadAppendsPadding : Prop :=
  encode .pad = 0x2400#16 ∧ ∀ s : State,
    (s.len = s.cfg.bufCap → exec .pad s = .next { s with ovf := true, resp := some 0x2000#16 }) ∧
    (s.len < s.cfg.bufCap → ∃ t, exec .pad s = .next t ∧
      (∀ a, t.buf.get a = if s.len ≤ a ∧ a < s.len + (8 - s.len % 8)
        then some (BitVec.ofNat 8 (8 - s.len % 8)) else s.buf.get a) ∧
      t = { s with
        buf := t.buf, len := s.len + (8 - s.len % 8), resp := some (BitVec.ofNat 16 (8 - s.len % 8)) } ∧
      0 < t.len ∧ t.len % 8 = 0 ∧ t.len ≤ s.cfg.bufCap)

/-- 43_padding.md R131: UNPAD removes a valid padding of `p` bytes and answers `p`; the bytes that stay are as before, the
removed ones have no value (10_state.md R34, log 5), and nothing else changes. -/
def Obligations.UnpadRemovesValidPadding : Prop :=
  ∀ (s : State) (p : Nat), ValidPadding s p →
    ∃ t, exec .unpad s = .next t ∧
      (∀ a, t.buf.get a = if a < s.len - p then s.buf.get a else none) ∧
      t = { s with buf := t.buf, len := s.len - p, resp := some (BitVec.ofNat 16 p) }

/-- 43_padding.md R131: with no valid padding (the empty buffer among the cases) UNPAD answers PADFAIL, sets PADERR and
changes nothing else. -/
def Obligations.UnpadRejectsInvalidPadding : Prop :=
  ∀ s : State, BufInv s → (∀ p, ¬ ValidPadding s p) →
    exec .unpad s = .next { s with paderr := true, resp := some 0x1000#16 }

/-- 43_padding.md R132: an UNPAD issued after a successful PAD answers the same padding value and restores the buffer. -/
def Obligations.UnpadUndoesPad : Prop :=
  ∀ s : State, Inv s → s.len < s.cfg.bufCap →
    ∃ t u, exec .pad s = .next t ∧ exec .unpad t = .next u ∧ u = { s with resp := u.resp } ∧ u.resp = t.resp

/-! ## Codec -/

/-- 44_codec.md R140: LEN, RP and BIDX are 0, no byte has a value any more (10_state.md R34, log 5), and nothing else
changes. -/
def Obligations.BclrEmptiesTheBuffer : Prop :=
  ∀ s : State, ∃ t, exec .bclr s = .next t ∧ (∀ a, t.buf.get a = none) ∧
    t = { s with buf := t.buf, len := 0, rp := 0, bidx := 0, resp := some 0x0000#16 }

/-- 44_codec.md R141: BPUSH on a full buffer is refused; otherwise the byte is appended and nothing else changes. -/
def Obligations.BpushAppendsAByte : Prop :=
  (∀ imm8 : Byte, encode (.bpush imm8) = 0x21#8 ++ imm8) ∧ ∀ (imm8 : Byte) (s : State),
    (s.len = s.cfg.bufCap → exec (.bpush imm8) s = .next { s with ovf := true, resp := some 0x2000#16 }) ∧
    (s.len < s.cfg.bufCap → ∃ t, exec (.bpush imm8) s = .next t ∧
      (∀ a, t.buf.get a = if a = s.len then some imm8 else s.buf.get a) ∧
      t = { s with buf := t.buf, len := s.len + 1, resp := some 0x0000#16 })

/-- 44_codec.md R142: BREW sets RP and BIDX to 0 and changes nothing else. -/
def Obligations.BrewRewindsBothCursors : Prop :=
  encode .brew = 0x2200#16 ∧ ∀ s : State, exec .brew s = .next { s with rp := 0, bidx := 0, resp := some 0x0000#16 }

/-- 44_codec.md R143: EMPTY at the end of the valid region, with no flag; otherwise the byte at RP, which has a value. -/
def Obligations.BreadReadsTheNextByte : Prop :=
  encode .bread = 0x2300#16 ∧ ∀ s : State,
    (s.len ≤ s.rp → exec .bread s = .next { s with resp := some 0x4000#16 }) ∧
    (BufInv s → s.rp < s.len → ∃ b, s.buf.get s.rp = some b ∧
      exec .bread s = .next { s with rp := s.rp + 1, resp := some (0x00#8 ++ b) })

/-- 44_codec.md R144, 20_memory.md R53, R54: LDB packs the chunk at BIDX big-endian, a byte at or above LEN counting as
0x00, and answers the number of bytes taken. `b j` names the byte of position `j`. -/
def Obligations.LdbPacksTheChunk : Prop :=
  encode .ldb = 0x3000#16 ∧ ∀ (s : State) (b : Nat → Byte),
    (∀ j < 8, if 8 * s.bidx + j < s.len then s.buf.get (8 * s.bidx + j) = some (b j) else b j = 0x00#8) →
      exec .ldb s = .next { s with
        v := ⟨b 0 ++ b 1 ++ b 2 ++ b 3, b 4 ++ b 5 ++ b 6 ++ b 7⟩,
        resp := some (BitVec.ofNat 16 (min 8 (s.len - 8 * s.bidx))) }

/-- 44_codec.md R145, 60_exceptions.md R188, 20_memory.md R53: STB's two refusals, SEQ first, and its eight bytes. -/
def Obligations.StbUnpacksTheBlock : Prop :=
  encode .stb = 0x3100#16 ∧ ∀ s : State,
    (s.len < 8 * s.bidx → exec .stb s = .next { s with seqerr := true, resp := some 0x5000#16 }) ∧
    (8 * s.bidx ≤ s.len → s.cfg.bufCap < 8 * s.bidx + 8 →
      exec .stb s = .next { s with ovf := true, resp := some 0x2000#16 }) ∧
    (8 * s.bidx ≤ s.len → 8 * s.bidx + 8 ≤ s.cfg.bufCap → ∃ t, exec .stb s = .next t ∧
      t.buf.get (8 * s.bidx) = some (s.v.v0.extractLsb' 24 8) ∧
      t.buf.get (8 * s.bidx + 1) = some (s.v.v0.extractLsb' 16 8) ∧
      t.buf.get (8 * s.bidx + 2) = some (s.v.v0.extractLsb' 8 8) ∧
      t.buf.get (8 * s.bidx + 3) = some (s.v.v0.extractLsb' 0 8) ∧
      t.buf.get (8 * s.bidx + 4) = some (s.v.v1.extractLsb' 24 8) ∧
      t.buf.get (8 * s.bidx + 5) = some (s.v.v1.extractLsb' 16 8) ∧
      t.buf.get (8 * s.bidx + 6) = some (s.v.v1.extractLsb' 8 8) ∧
      t.buf.get (8 * s.bidx + 7) = some (s.v.v1.extractLsb' 0 8) ∧
      (∀ a, a < 8 * s.bidx ∨ 8 * s.bidx + 8 ≤ a → t.buf.get a = s.buf.get a) ∧
      t = { s with
        buf := t.buf, len := max s.len (8 * s.bidx + 8), bidx := s.bidx + 1, resp := some 0x0000#16 })

/-- 44_codec.md R146: LDB then STB on a full chunk leaves BUF and LEN unchanged and steps BIDX; on a short chunk it keeps
the bytes, writes 0x00 after them, and raises LEN to the end of the chunk. -/
def Obligations.LdbThenStb : Prop :=
  ∀ s : State, Inv s → 8 * s.bidx < s.len →
    ∃ t u, exec .ldb s = .next t ∧ exec .stb t = .next u ∧ u.bidx = s.bidx + 1 ∧
      (8 * s.bidx + 8 ≤ s.len → u.buf = s.buf ∧ u.len = s.len) ∧
      (s.len < 8 * s.bidx + 8 → u.len = 8 * s.bidx + 8 ∧
        ∀ a, u.buf.get a = if s.len ≤ a ∧ a < 8 * s.bidx + 8 then some 0x00#8 else s.buf.get a)

/-- 44_codec.md R146: with BIDX = 0 and any V, a successful STB followed by BREW and LDB gives V back. -/
def Obligations.StbThenLdbGivesTheBlockBack : Prop :=
  ∀ s : State, s.bidx = 0 →
    ∃ t u w, exec .stb s = .next t ∧ exec .brew t = .next u ∧ exec .ldb u = .next w ∧ w.v = s.v

/-! ## Errors -/

/-- 60_exceptions.md R181: whatever command answers a code other than OK, the sticky flag of the code (R182) is set, the
data byte is 0x00, and nothing else changes. -/
def Obligations.AFailedCommandChangesOnlyItsFlag : Prop :=
  ∀ (i : Instr) (s t : State) (r : RespWord),
    s.resp = none → exec i s = .next t → t.resp = some r → r.extractLsb' 12 4 ≠ 0#4 →
      t = { s with
        paderr := s.paderr || decide (r = 0x1000#16), ovf := s.ovf || decide (r = 0x2000#16),
        ill := s.ill || decide (r = 0x3000#16), seqerr := s.seqerr || decide (r = 0x5000#16), resp := some r } ∧
      r ∈ [0x1000#16, 0x2000#16, 0x3000#16, 0x4000#16, 0x5000#16]

/-- 60_exceptions.md R184: SEQ is raised in exactly these cases. -/
def Obligations.SeqIsRaisedExactlyHere : Prop :=
  ∀ (i : Instr) (s t : State), s.resp = none → exec i s = .next t →
    (t.resp = some 0x5000#16 ↔
      (((∃ b, i = .kbyte b) ∨ i = .kfin) ∧ s.kacc = false) ∨ ((i = .enc ∨ i = .dec) ∧ s.kvalid = false) ∨
        (i = .stb ∧ s.len < 8 * s.bidx))

/-- 60_exceptions.md R185, with R188's priority of SEQ for STB: OVERFLOW is raised in exactly these cases. -/
def Obligations.OverflowIsRaisedExactlyHere : Prop :=
  ∀ (i : Instr) (s t : State), s.resp = none → exec i s = .next t →
    (t.resp = some 0x2000#16 ↔
      (((∃ b, i = .bpush b) ∨ i = .pad) ∧ s.len = s.cfg.bufCap) ∨
        (i = .stb ∧ 8 * s.bidx ≤ s.len ∧ s.cfg.bufCap < 8 * s.bidx + 8))

/-- 30_encoding.md R72, 60_exceptions.md R182: the form of every response; PADFAIL only from UNPAD, EMPTY only from BREAD,
ILLEGAL from no command; a data byte only from the six commands that have one. -/
def Obligations.ResponseWordForm : Prop :=
  ∀ (i : Instr) (s t : State) (r : RespWord), s.resp = none → exec i s = .next t → t.resp = some r →
    r.extractLsb' 8 4 = 0#4 ∧ (r.extractLsb' 12 4).toNat ≤ 5 ∧
    (r.extractLsb' 12 4 ≠ 0#4 → r.extractLsb' 0 8 = 0x00#8) ∧
    (r.extractLsb' 12 4 = 1#4 → i = .unpad) ∧ (r.extractLsb' 12 4 = 4#4 → i = .bread) ∧ r.extractLsb' 12 4 ≠ 3#4 ∧
    (r.extractLsb' 0 8 ≠ 0x00#8 → i ∈ [.stat, .kfin, .bread, .pad, .unpad, .ldb])

/-- 10_state.md R31, 60_exceptions.md R191: a sticky flag that is 1 stays 1 through every step but a reset and a CLRF (log 2). -/
def Obligations.StickyFlagsStaySet : Prop :=
  ∀ s t : State, step s = .next t → s.inbox.head? ≠ some .reset →
    ¬ (s.phase = .idle ∧ s.inbox.head? = some (.command 0x0200#16)) →
      (s.paderr = true → t.paderr = true) ∧ (s.ovf = true → t.ovf = true) ∧
      (s.ill = true → t.ill = true) ∧ (s.seqerr = true → t.seqerr = true)

/-- 60_exceptions.md R191, 10_state.md R31: no command reads a flag to decide what it does; only STAT's answer differs. -/
def Obligations.FlagsBlockNothing : Prop :=
  ∀ (i : Instr) (s t : State) (a b c d : Bool), exec i s = .next t →
    ∃ u, exec i { s with paderr := a, ovf := b, ill := c, seqerr := d } = .next u ∧
      clearSticky { u with resp := none } = clearSticky { t with resp := none } ∧ (i ≠ .stat → u.resp = t.resp)

/-! ## Whole-machine rules -/

/-- 10_state.md R20, the column Written by, for the commands: a command changes no register but those that list it. BUF
also loses values where BCLR and UNPAD lower LEN (R34, log 5). -/
def Obligations.OnlyListedCommandsWriteARegister : Prop :=
  ∀ (i : Instr) (s t : State), exec i s = .next t →
    t.cfg = s.cfg ∧ t.inbox = s.inbox ∧
    (t.k ≠ s.k → i ∈ [.kinit, .kfin] ∨ ∃ b, i = .kbyte b) ∧
    (t.v ≠ s.v → i = .ldb) ∧
    (t.sum ≠ s.sum → i ∈ [.enc, .dec]) ∧
    (t.rc ≠ s.rc → i ∈ [.enc, .dec]) ∧
    (t.phase ≠ s.phase → i ∈ [.enc, .dec]) ∧
    (t.kpos ≠ s.kpos → i ∈ [.kinit, .kfin] ∨ ∃ b, i = .kbyte b) ∧
    (t.kacc ≠ s.kacc → i ∈ [.kinit, .kfin]) ∧
    (t.kvalid ≠ s.kvalid → i ∈ [.kinit, .kfin]) ∧
    (t.len ≠ s.len → i ∈ [.bclr, .pad, .unpad, .stb] ∨ ∃ b, i = .bpush b) ∧
    (t.rp ≠ s.rp → i ∈ [.bclr, .brew, .bread]) ∧
    (t.bidx ≠ s.bidx → i ∈ [.bclr, .brew, .stb]) ∧
    (t.paderr ≠ s.paderr → i ∈ [.unpad, .clrf]) ∧
    (t.ovf ≠ s.ovf → i ∈ [.pad, .stb, .clrf] ∨ ∃ b, i = .bpush b) ∧
    (t.ill ≠ s.ill → i = .clrf) ∧
    (t.seqerr ≠ s.seqerr → i ∈ [.kfin, .enc, .dec, .stb, .clrf] ∨ ∃ b, i = .kbyte b) ∧
    (t.buf ≠ s.buf → i ∈ [.pad, .stb, .bclr, .unpad] ∨ ∃ b, i = .bpush b)

/-- 42_cipher.md R119, R114(b), R115(b), 60_exceptions.md R195: a round micro-step sets no flag and changes nothing but V,
SUM, RC, PHASE and, at the end of the run, the response. -/
def Obligations.MicroStepsChangeOnlyTheCipherRegisters : Prop :=
  ∀ s : State, ∃ (v : Block) (x : Word) (n : BitVec 6) (p : Phase) (r : Option RespWord),
    microStep s = { s with v := v, sum := x, rc := n, phase := p, resp := r } ∧
      (p = s.phase ∧ r = s.resp ∨ p = .idle ∧ r = some 0x0000#16)

/-- 10_state.md R21: no command returns the key to the host: two states that differ only in K answer alike, and end in
states that differ only in K. ENC and DEC stand here for the start of the run, which is what exec answers of them (log 4, the
model's choice): carried to their end, R114(d) and R115(c), they give blocks V that depend on K. -/
def Obligations.NoCommandReadsTheKeyOut : Prop :=
  ∀ (i : Instr) (s t : State) (k : KeyFile), exec i s = .next t →
    ∃ k', exec i { s with k := k } = .next { t with k := k' }

/-- The model's own rule (log 5): the memory keeps its canonical form, addresses strictly rising, in every step and from
every state. -/
def Obligations.StepKeepsMemoryCanonical : Prop :=
  ∀ s t : State, s.buf.wf = true → step s = .next t → t.buf.wf = true

/-! ## The invariant -/

/-- 10_state.md R38: the invariant holds after reset, for every capacity. -/
def Obligations.InvariantHoldsAtReset : Prop :=
  (∀ c : Config, Inv (State.resetOf c)) ∧ Inv State.reset

/-- 10_state.md R38: every step keeps the invariant. -/
def Obligations.StepKeepsTheInvariant : Prop :=
  ∀ s t : State, Inv s → step s = .next t → Inv t

/-- 00_scope.md R15, 70_reset_and_hazards.md R207: in a state that meets the invariant every step, and so every command,
completes: the core never hangs, and neither of the model's two faults (log 6) arises. -/
def Obligations.TheMachineNeverStops : Prop :=
  ∀ s : State, Inv s → ∃ t, step s = .next t

/-! ## Host sequences -/

/-- 46_pipeline.md R171, 44_codec.md R147: the encrypt path leaves in the valid region the padded input, encrypted chunk by
chunk with no chaining (R176), and nothing for an empty input (R174); the loop has ended because MORE is 0, and the key is
as before (log 10). -/
def Obligations.EncryptPathEncryptsEveryChunk : Prop :=
  ∀ (s : State) (x : List Byte), Inv s → s.phase = .idle → s.kvalid = true → x.length < s.cfg.bufCap →
    ∃ t, encryptPath x s = .next t ∧
      region t = (if x = [] then [] else ecb (fun v => encryptBlock v s.k) (padded x)) ∧
      t.k = s.k ∧ t.kvalid = true ∧ t.phase = .idle ∧ more t = false ∧ Inv t

/-- 46_pipeline.md R173, 44_codec.md R144(b), 43_padding.md R131: the decrypt path on any input, also one whose length is
not a multiple of 8: the zero-filled input, decrypted chunk by chunk, with its padding stripped if it is valid and whole,
with PADERR set and the answer PADFAIL, if it is not; nothing for an empty input (R174; log 10). -/
def Obligations.DecryptPathDecryptsEveryChunk : Prop :=
  ∀ (s : State) (x : List Byte), Inv s → s.phase = .idle → s.kvalid = true → 8 * ((x.length + 7) / 8) ≤ s.cfg.bufCap →
    let y := ecb (fun v => decryptBlock v s.k) (zeroFilled x)
    ∃ t, decryptPath x s = .next t ∧ t.k = s.k ∧ t.phase = .idle ∧ Inv t ∧
      (x = [] → region t = [] ∧ t.paderr = s.paderr) ∧
      (∀ p, x ≠ [] → EndsInPadding y p →
        region t = y.take (y.length - p) ∧ t.resp = some (BitVec.ofNat 16 p) ∧ t.paderr = s.paderr) ∧
      (x ≠ [] → (∀ p, ¬ EndsInPadding y p) → region t = y ∧ t.resp = some 0x1000#16 ∧ t.paderr = true)

/-- 46_pipeline.md R172: reading out after BREW gives exactly the valid region (log 10). -/
def Obligations.ReadOutIsTheValidRegion : Prop :=
  ∀ s : State, Inv s → s.phase = .idle → readOut s = region s

/-- 46_pipeline.md R175, R174: for every input that fits and every key, the decrypt path on the result of the encrypt path
gives the input back, under the same key (log 10). -/
def Obligations.WholeBufferRoundTrip : Prop :=
  ∀ (s : State) (x : List Byte), Inv s → s.phase = .idle → s.kvalid = true → x.length < s.cfg.bufCap →
    ∃ t u, encryptPath x s = .next t ∧ decryptPath (region t) t = .next u ∧ region u = x ∧ u.k = s.k ∧
      (x ≠ [] → u.resp = some (BitVec.ofNat 16 (8 - x.length % 8)))
end

