-- ==== Sys2Proof/Laws/State.lean ====
section
/-! SUPPORT. One lemma per field per named update of State, true by unfolding: no later proof unfolds an update. -/

namespace Sys2Proof.Machine

open Sys2Proof

/-! ## respond -/

@[simp] theorem respond_cfg (c : Code) (d : Byte) (s : State) : (respond c d s).cfg = s.cfg := rfl
@[simp] theorem respond_k (c : Code) (d : Byte) (s : State) : (respond c d s).k = s.k := rfl
@[simp] theorem respond_v (c : Code) (d : Byte) (s : State) : (respond c d s).v = s.v := rfl
@[simp] theorem respond_sum (c : Code) (d : Byte) (s : State) : (respond c d s).sum = s.sum := rfl
@[simp] theorem respond_rc (c : Code) (d : Byte) (s : State) : (respond c d s).rc = s.rc := rfl
@[simp] theorem respond_phase (c : Code) (d : Byte) (s : State) : (respond c d s).phase = s.phase := rfl
@[simp] theorem respond_kpos (c : Code) (d : Byte) (s : State) : (respond c d s).kpos = s.kpos := rfl
@[simp] theorem respond_kacc (c : Code) (d : Byte) (s : State) : (respond c d s).kacc = s.kacc := rfl
@[simp] theorem respond_kvalid (c : Code) (d : Byte) (s : State) : (respond c d s).kvalid = s.kvalid := rfl
@[simp] theorem respond_len (c : Code) (d : Byte) (s : State) : (respond c d s).len = s.len := rfl
@[simp] theorem respond_rp (c : Code) (d : Byte) (s : State) : (respond c d s).rp = s.rp := rfl
@[simp] theorem respond_bidx (c : Code) (d : Byte) (s : State) : (respond c d s).bidx = s.bidx := rfl
@[simp] theorem respond_paderr (c : Code) (d : Byte) (s : State) : (respond c d s).paderr = s.paderr := rfl
@[simp] theorem respond_ovf (c : Code) (d : Byte) (s : State) : (respond c d s).ovf = s.ovf := rfl
@[simp] theorem respond_ill (c : Code) (d : Byte) (s : State) : (respond c d s).ill = s.ill := rfl
@[simp] theorem respond_seqerr (c : Code) (d : Byte) (s : State) : (respond c d s).seqerr = s.seqerr := rfl
@[simp] theorem respond_buf (c : Code) (d : Byte) (s : State) : (respond c d s).buf = s.buf := rfl
@[simp] theorem respond_resp (c : Code) (d : Byte) (s : State) : (respond c d s).resp = some (respWord c d) := rfl
@[simp] theorem respond_inbox (c : Code) (d : Byte) (s : State) : (respond c d s).inbox = s.inbox := rfl

/-! ## setSticky -/

@[simp] theorem setSticky_cfg (c : Code) (s : State) : (setSticky c s).cfg = s.cfg := by cases c <;> rfl
@[simp] theorem setSticky_k (c : Code) (s : State) : (setSticky c s).k = s.k := by cases c <;> rfl
@[simp] theorem setSticky_v (c : Code) (s : State) : (setSticky c s).v = s.v := by cases c <;> rfl
@[simp] theorem setSticky_sum (c : Code) (s : State) : (setSticky c s).sum = s.sum := by cases c <;> rfl
@[simp] theorem setSticky_rc (c : Code) (s : State) : (setSticky c s).rc = s.rc := by cases c <;> rfl
@[simp] theorem setSticky_phase (c : Code) (s : State) : (setSticky c s).phase = s.phase := by cases c <;> rfl
@[simp] theorem setSticky_kpos (c : Code) (s : State) : (setSticky c s).kpos = s.kpos := by cases c <;> rfl
@[simp] theorem setSticky_kacc (c : Code) (s : State) : (setSticky c s).kacc = s.kacc := by cases c <;> rfl
@[simp] theorem setSticky_kvalid (c : Code) (s : State) : (setSticky c s).kvalid = s.kvalid := by cases c <;> rfl
@[simp] theorem setSticky_len (c : Code) (s : State) : (setSticky c s).len = s.len := by cases c <;> rfl
@[simp] theorem setSticky_rp (c : Code) (s : State) : (setSticky c s).rp = s.rp := by cases c <;> rfl
@[simp] theorem setSticky_bidx (c : Code) (s : State) : (setSticky c s).bidx = s.bidx := by cases c <;> rfl
@[simp] theorem setSticky_paderr (c : Code) (s : State) : (setSticky c s).paderr = (s.paderr || decide (c = .padfail)) := by
  cases c <;> simp [setSticky]
@[simp] theorem setSticky_ovf (c : Code) (s : State) : (setSticky c s).ovf = (s.ovf || decide (c = .overflow)) := by
  cases c <;> simp [setSticky]
@[simp] theorem setSticky_ill (c : Code) (s : State) : (setSticky c s).ill = (s.ill || decide (c = .illegal)) := by
  cases c <;> simp [setSticky]
@[simp] theorem setSticky_seqerr (c : Code) (s : State) : (setSticky c s).seqerr = (s.seqerr || decide (c = .seq)) := by
  cases c <;> simp [setSticky]
@[simp] theorem setSticky_buf (c : Code) (s : State) : (setSticky c s).buf = s.buf := by cases c <;> rfl
@[simp] theorem setSticky_resp (c : Code) (s : State) : (setSticky c s).resp = s.resp := by cases c <;> rfl
@[simp] theorem setSticky_inbox (c : Code) (s : State) : (setSticky c s).inbox = s.inbox := by cases c <;> rfl

/-! ## raise -/

@[simp] theorem raise_cfg (c : Code) (s : State) : (raise c s).cfg = s.cfg := by simp [raise]
@[simp] theorem raise_k (c : Code) (s : State) : (raise c s).k = s.k := by simp [raise]
@[simp] theorem raise_v (c : Code) (s : State) : (raise c s).v = s.v := by simp [raise]
@[simp] theorem raise_sum (c : Code) (s : State) : (raise c s).sum = s.sum := by simp [raise]
@[simp] theorem raise_rc (c : Code) (s : State) : (raise c s).rc = s.rc := by simp [raise]
@[simp] theorem raise_phase (c : Code) (s : State) : (raise c s).phase = s.phase := by simp [raise]
@[simp] theorem raise_kpos (c : Code) (s : State) : (raise c s).kpos = s.kpos := by simp [raise]
@[simp] theorem raise_kacc (c : Code) (s : State) : (raise c s).kacc = s.kacc := by simp [raise]
@[simp] theorem raise_kvalid (c : Code) (s : State) : (raise c s).kvalid = s.kvalid := by simp [raise]
@[simp] theorem raise_len (c : Code) (s : State) : (raise c s).len = s.len := by simp [raise]
@[simp] theorem raise_rp (c : Code) (s : State) : (raise c s).rp = s.rp := by simp [raise]
@[simp] theorem raise_bidx (c : Code) (s : State) : (raise c s).bidx = s.bidx := by simp [raise]
@[simp] theorem raise_paderr (c : Code) (s : State) : (raise c s).paderr = (s.paderr || decide (c = .padfail)) := by simp [raise]
@[simp] theorem raise_ovf (c : Code) (s : State) : (raise c s).ovf = (s.ovf || decide (c = .overflow)) := by simp [raise]
@[simp] theorem raise_ill (c : Code) (s : State) : (raise c s).ill = (s.ill || decide (c = .illegal)) := by simp [raise]
@[simp] theorem raise_seqerr (c : Code) (s : State) : (raise c s).seqerr = (s.seqerr || decide (c = .seq)) := by simp [raise]
@[simp] theorem raise_buf (c : Code) (s : State) : (raise c s).buf = s.buf := by simp [raise]
@[simp] theorem raise_resp (c : Code) (s : State) : (raise c s).resp = some (respWord c 0x00#8) := rfl
@[simp] theorem raise_inbox (c : Code) (s : State) : (raise c s).inbox = s.inbox := by simp [raise]

/-! ## clearSticky -/

@[simp] theorem clearSticky_cfg (s : State) : (clearSticky s).cfg = s.cfg := rfl
@[simp] theorem clearSticky_k (s : State) : (clearSticky s).k = s.k := rfl
@[simp] theorem clearSticky_v (s : State) : (clearSticky s).v = s.v := rfl
@[simp] theorem clearSticky_sum (s : State) : (clearSticky s).sum = s.sum := rfl
@[simp] theorem clearSticky_rc (s : State) : (clearSticky s).rc = s.rc := rfl
@[simp] theorem clearSticky_phase (s : State) : (clearSticky s).phase = s.phase := rfl
@[simp] theorem clearSticky_kpos (s : State) : (clearSticky s).kpos = s.kpos := rfl
@[simp] theorem clearSticky_kacc (s : State) : (clearSticky s).kacc = s.kacc := rfl
@[simp] theorem clearSticky_kvalid (s : State) : (clearSticky s).kvalid = s.kvalid := rfl
@[simp] theorem clearSticky_len (s : State) : (clearSticky s).len = s.len := rfl
@[simp] theorem clearSticky_rp (s : State) : (clearSticky s).rp = s.rp := rfl
@[simp] theorem clearSticky_bidx (s : State) : (clearSticky s).bidx = s.bidx := rfl
@[simp] theorem clearSticky_paderr (s : State) : (clearSticky s).paderr = false := rfl
@[simp] theorem clearSticky_ovf (s : State) : (clearSticky s).ovf = false := rfl
@[simp] theorem clearSticky_ill (s : State) : (clearSticky s).ill = false := rfl
@[simp] theorem clearSticky_seqerr (s : State) : (clearSticky s).seqerr = false := rfl
@[simp] theorem clearSticky_buf (s : State) : (clearSticky s).buf = s.buf := rfl
@[simp] theorem clearSticky_resp (s : State) : (clearSticky s).resp = s.resp := rfl
@[simp] theorem clearSticky_inbox (s : State) : (clearSticky s).inbox = s.inbox := rfl

/-! ## shrinkTo -/

@[simp] theorem shrinkTo_cfg (n : Nat) (s : State) : (shrinkTo n s).cfg = s.cfg := rfl
@[simp] theorem shrinkTo_k (n : Nat) (s : State) : (shrinkTo n s).k = s.k := rfl
@[simp] theorem shrinkTo_v (n : Nat) (s : State) : (shrinkTo n s).v = s.v := rfl
@[simp] theorem shrinkTo_sum (n : Nat) (s : State) : (shrinkTo n s).sum = s.sum := rfl
@[simp] theorem shrinkTo_rc (n : Nat) (s : State) : (shrinkTo n s).rc = s.rc := rfl
@[simp] theorem shrinkTo_phase (n : Nat) (s : State) : (shrinkTo n s).phase = s.phase := rfl
@[simp] theorem shrinkTo_kpos (n : Nat) (s : State) : (shrinkTo n s).kpos = s.kpos := rfl
@[simp] theorem shrinkTo_kacc (n : Nat) (s : State) : (shrinkTo n s).kacc = s.kacc := rfl
@[simp] theorem shrinkTo_kvalid (n : Nat) (s : State) : (shrinkTo n s).kvalid = s.kvalid := rfl
@[simp] theorem shrinkTo_len (n : Nat) (s : State) : (shrinkTo n s).len = n := rfl
@[simp] theorem shrinkTo_rp (n : Nat) (s : State) : (shrinkTo n s).rp = s.rp := rfl
@[simp] theorem shrinkTo_bidx (n : Nat) (s : State) : (shrinkTo n s).bidx = s.bidx := rfl
@[simp] theorem shrinkTo_paderr (n : Nat) (s : State) : (shrinkTo n s).paderr = s.paderr := rfl
@[simp] theorem shrinkTo_ovf (n : Nat) (s : State) : (shrinkTo n s).ovf = s.ovf := rfl
@[simp] theorem shrinkTo_ill (n : Nat) (s : State) : (shrinkTo n s).ill = s.ill := rfl
@[simp] theorem shrinkTo_seqerr (n : Nat) (s : State) : (shrinkTo n s).seqerr = s.seqerr := rfl
@[simp] theorem shrinkTo_buf (n : Nat) (s : State) : (shrinkTo n s).buf = s.buf.below n := rfl
@[simp] theorem shrinkTo_resp (n : Nat) (s : State) : (shrinkTo n s).resp = s.resp := rfl
@[simp] theorem shrinkTo_inbox (n : Nat) (s : State) : (shrinkTo n s).inbox = s.inbox := rfl

/-! ## consume -/

@[simp] theorem consume_cfg (rest : List HostEvent) (s : State) : (consume rest s).cfg = s.cfg := rfl
@[simp] theorem consume_k (rest : List HostEvent) (s : State) : (consume rest s).k = s.k := rfl
@[simp] theorem consume_v (rest : List HostEvent) (s : State) : (consume rest s).v = s.v := rfl
@[simp] theorem consume_sum (rest : List HostEvent) (s : State) : (consume rest s).sum = s.sum := rfl
@[simp] theorem consume_rc (rest : List HostEvent) (s : State) : (consume rest s).rc = s.rc := rfl
@[simp] theorem consume_phase (rest : List HostEvent) (s : State) : (consume rest s).phase = s.phase := rfl
@[simp] theorem consume_kpos (rest : List HostEvent) (s : State) : (consume rest s).kpos = s.kpos := rfl
@[simp] theorem consume_kacc (rest : List HostEvent) (s : State) : (consume rest s).kacc = s.kacc := rfl
@[simp] theorem consume_kvalid (rest : List HostEvent) (s : State) : (consume rest s).kvalid = s.kvalid := rfl
@[simp] theorem consume_len (rest : List HostEvent) (s : State) : (consume rest s).len = s.len := rfl
@[simp] theorem consume_rp (rest : List HostEvent) (s : State) : (consume rest s).rp = s.rp := rfl
@[simp] theorem consume_bidx (rest : List HostEvent) (s : State) : (consume rest s).bidx = s.bidx := rfl
@[simp] theorem consume_paderr (rest : List HostEvent) (s : State) : (consume rest s).paderr = s.paderr := rfl
@[simp] theorem consume_ovf (rest : List HostEvent) (s : State) : (consume rest s).ovf = s.ovf := rfl
@[simp] theorem consume_ill (rest : List HostEvent) (s : State) : (consume rest s).ill = s.ill := rfl
@[simp] theorem consume_seqerr (rest : List HostEvent) (s : State) : (consume rest s).seqerr = s.seqerr := rfl
@[simp] theorem consume_buf (rest : List HostEvent) (s : State) : (consume rest s).buf = s.buf := rfl
@[simp] theorem consume_resp (rest : List HostEvent) (s : State) : (consume rest s).resp = none := rfl
@[simp] theorem consume_inbox (rest : List HostEvent) (s : State) : (consume rest s).inbox = rest := rfl

/-! ## accumulate -/

@[simp] theorem accumulate_cfg (b : Byte) (s : State) : (accumulate b s).cfg = s.cfg := rfl
@[simp] theorem accumulate_k (b : Byte) (s : State) : (accumulate b s).k = s.k.set (keyIndex s) (shl32 (s.k.get (keyIndex s)) 8 ||| zext32 b) := rfl
@[simp] theorem accumulate_v (b : Byte) (s : State) : (accumulate b s).v = s.v := rfl
@[simp] theorem accumulate_sum (b : Byte) (s : State) : (accumulate b s).sum = s.sum := rfl
@[simp] theorem accumulate_rc (b : Byte) (s : State) : (accumulate b s).rc = s.rc := rfl
@[simp] theorem accumulate_phase (b : Byte) (s : State) : (accumulate b s).phase = s.phase := rfl
@[simp] theorem accumulate_kpos (b : Byte) (s : State) : (accumulate b s).kpos = s.kpos + 1 := rfl
@[simp] theorem accumulate_kacc (b : Byte) (s : State) : (accumulate b s).kacc = s.kacc := rfl
@[simp] theorem accumulate_kvalid (b : Byte) (s : State) : (accumulate b s).kvalid = s.kvalid := rfl
@[simp] theorem accumulate_len (b : Byte) (s : State) : (accumulate b s).len = s.len := rfl
@[simp] theorem accumulate_rp (b : Byte) (s : State) : (accumulate b s).rp = s.rp := rfl
@[simp] theorem accumulate_bidx (b : Byte) (s : State) : (accumulate b s).bidx = s.bidx := rfl
@[simp] theorem accumulate_paderr (b : Byte) (s : State) : (accumulate b s).paderr = s.paderr := rfl
@[simp] theorem accumulate_ovf (b : Byte) (s : State) : (accumulate b s).ovf = s.ovf := rfl
@[simp] theorem accumulate_ill (b : Byte) (s : State) : (accumulate b s).ill = s.ill := rfl
@[simp] theorem accumulate_seqerr (b : Byte) (s : State) : (accumulate b s).seqerr = s.seqerr := rfl
@[simp] theorem accumulate_buf (b : Byte) (s : State) : (accumulate b s).buf = s.buf := rfl
@[simp] theorem accumulate_resp (b : Byte) (s : State) : (accumulate b s).resp = s.resp := rfl
@[simp] theorem accumulate_inbox (b : Byte) (s : State) : (accumulate b s).inbox = s.inbox := rfl

/-! ## startRun -/

@[simp] theorem startRun_cfg (p : Phase) (x : Word) (s : State) : (startRun p x s).cfg = s.cfg := rfl
@[simp] theorem startRun_k (p : Phase) (x : Word) (s : State) : (startRun p x s).k = s.k := rfl
@[simp] theorem startRun_v (p : Phase) (x : Word) (s : State) : (startRun p x s).v = s.v := rfl
@[simp] theorem startRun_sum (p : Phase) (x : Word) (s : State) : (startRun p x s).sum = x := rfl
@[simp] theorem startRun_rc (p : Phase) (x : Word) (s : State) : (startRun p x s).rc = 0#6 := rfl
@[simp] theorem startRun_phase (p : Phase) (x : Word) (s : State) : (startRun p x s).phase = p := rfl
@[simp] theorem startRun_kpos (p : Phase) (x : Word) (s : State) : (startRun p x s).kpos = s.kpos := rfl
@[simp] theorem startRun_kacc (p : Phase) (x : Word) (s : State) : (startRun p x s).kacc = s.kacc := rfl
@[simp] theorem startRun_kvalid (p : Phase) (x : Word) (s : State) : (startRun p x s).kvalid = s.kvalid := rfl
@[simp] theorem startRun_len (p : Phase) (x : Word) (s : State) : (startRun p x s).len = s.len := rfl
@[simp] theorem startRun_rp (p : Phase) (x : Word) (s : State) : (startRun p x s).rp = s.rp := rfl
@[simp] theorem startRun_bidx (p : Phase) (x : Word) (s : State) : (startRun p x s).bidx = s.bidx := rfl
@[simp] theorem startRun_paderr (p : Phase) (x : Word) (s : State) : (startRun p x s).paderr = s.paderr := rfl
@[simp] theorem startRun_ovf (p : Phase) (x : Word) (s : State) : (startRun p x s).ovf = s.ovf := rfl
@[simp] theorem startRun_ill (p : Phase) (x : Word) (s : State) : (startRun p x s).ill = s.ill := rfl
@[simp] theorem startRun_seqerr (p : Phase) (x : Word) (s : State) : (startRun p x s).seqerr = s.seqerr := rfl
@[simp] theorem startRun_buf (p : Phase) (x : Word) (s : State) : (startRun p x s).buf = s.buf := rfl
@[simp] theorem startRun_resp (p : Phase) (x : Word) (s : State) : (startRun p x s).resp = s.resp := rfl
@[simp] theorem startRun_inbox (p : Phase) (x : Word) (s : State) : (startRun p x s).inbox = s.inbox := rfl

/-! ## encryptRound -/

@[simp] theorem encryptRound_cfg (s : State) : (encryptRound s).cfg = s.cfg := rfl
@[simp] theorem encryptRound_k (s : State) : (encryptRound s).k = s.k := rfl
@[simp] theorem encryptRound_v (s : State) : (encryptRound s).v = encMix s.k (add32 s.sum delta) s.v := rfl
@[simp] theorem encryptRound_sum (s : State) : (encryptRound s).sum = add32 s.sum delta := rfl
@[simp] theorem encryptRound_rc (s : State) : (encryptRound s).rc = s.rc + 1 := rfl
@[simp] theorem encryptRound_phase (s : State) : (encryptRound s).phase = s.phase := rfl
@[simp] theorem encryptRound_kpos (s : State) : (encryptRound s).kpos = s.kpos := rfl
@[simp] theorem encryptRound_kacc (s : State) : (encryptRound s).kacc = s.kacc := rfl
@[simp] theorem encryptRound_kvalid (s : State) : (encryptRound s).kvalid = s.kvalid := rfl
@[simp] theorem encryptRound_len (s : State) : (encryptRound s).len = s.len := rfl
@[simp] theorem encryptRound_rp (s : State) : (encryptRound s).rp = s.rp := rfl
@[simp] theorem encryptRound_bidx (s : State) : (encryptRound s).bidx = s.bidx := rfl
@[simp] theorem encryptRound_paderr (s : State) : (encryptRound s).paderr = s.paderr := rfl
@[simp] theorem encryptRound_ovf (s : State) : (encryptRound s).ovf = s.ovf := rfl
@[simp] theorem encryptRound_ill (s : State) : (encryptRound s).ill = s.ill := rfl
@[simp] theorem encryptRound_seqerr (s : State) : (encryptRound s).seqerr = s.seqerr := rfl
@[simp] theorem encryptRound_buf (s : State) : (encryptRound s).buf = s.buf := rfl
@[simp] theorem encryptRound_resp (s : State) : (encryptRound s).resp = s.resp := rfl
@[simp] theorem encryptRound_inbox (s : State) : (encryptRound s).inbox = s.inbox := rfl

/-! ## decryptRound -/

@[simp] theorem decryptRound_cfg (s : State) : (decryptRound s).cfg = s.cfg := rfl
@[simp] theorem decryptRound_k (s : State) : (decryptRound s).k = s.k := rfl
@[simp] theorem decryptRound_v (s : State) : (decryptRound s).v = decMix s.k s.sum s.v := rfl
@[simp] theorem decryptRound_sum (s : State) : (decryptRound s).sum = sub32 s.sum delta := rfl
@[simp] theorem decryptRound_rc (s : State) : (decryptRound s).rc = s.rc + 1 := rfl
@[simp] theorem decryptRound_phase (s : State) : (decryptRound s).phase = s.phase := rfl
@[simp] theorem decryptRound_kpos (s : State) : (decryptRound s).kpos = s.kpos := rfl
@[simp] theorem decryptRound_kacc (s : State) : (decryptRound s).kacc = s.kacc := rfl
@[simp] theorem decryptRound_kvalid (s : State) : (decryptRound s).kvalid = s.kvalid := rfl
@[simp] theorem decryptRound_len (s : State) : (decryptRound s).len = s.len := rfl
@[simp] theorem decryptRound_rp (s : State) : (decryptRound s).rp = s.rp := rfl
@[simp] theorem decryptRound_bidx (s : State) : (decryptRound s).bidx = s.bidx := rfl
@[simp] theorem decryptRound_paderr (s : State) : (decryptRound s).paderr = s.paderr := rfl
@[simp] theorem decryptRound_ovf (s : State) : (decryptRound s).ovf = s.ovf := rfl
@[simp] theorem decryptRound_ill (s : State) : (decryptRound s).ill = s.ill := rfl
@[simp] theorem decryptRound_seqerr (s : State) : (decryptRound s).seqerr = s.seqerr := rfl
@[simp] theorem decryptRound_buf (s : State) : (decryptRound s).buf = s.buf := rfl
@[simp] theorem decryptRound_resp (s : State) : (decryptRound s).resp = s.resp := rfl
@[simp] theorem decryptRound_inbox (s : State) : (decryptRound s).inbox = s.inbox := rfl

/-! ## applyReset -/

@[simp] theorem applyReset_cfg (rest : List HostEvent) (s : State) : (applyReset rest s).cfg = s.cfg := rfl
@[simp] theorem applyReset_inbox (rest : List HostEvent) (s : State) : (applyReset rest s).inbox = rest := rfl
@[simp] theorem applyReset_phase (rest : List HostEvent) (s : State) : (applyReset rest s).phase = .idle := rfl
@[simp] theorem applyReset_resp (rest : List HostEvent) (s : State) : (applyReset rest s).resp = none := rfl

/-! ## The key-register file -/

@[simp] theorem KeyFile.get_set_same (k : KeyFile) (i : Fin 4) (w : Word) : (k.set i w).get i = w := by
  match i with
  | 0 => rfl
  | 1 => rfl
  | 2 => rfl
  | 3 => rfl

theorem KeyFile.get_set_other (k : KeyFile) {i j : Fin 4} (w : Word) (h : j ≠ i) : (k.set i w).get j = k.get j := by
  match i, j with
  | 0, 0 | 1, 1 | 2, 2 | 3, 3 => exact absurd rfl h
  | 0, 1 | 0, 2 | 0, 3 | 1, 0 | 1, 2 | 1, 3 | 2, 0 | 2, 1 | 2, 3 | 3, 0 | 3, 1 | 3, 2 => rfl

theorem KeyFile.ext_get {k l : KeyFile} (h : ∀ i : Fin 4, k.get i = l.get i) : k = l := by
  obtain ⟨a, b, c, d⟩ := k
  obtain ⟨a', b', c', d'⟩ := l
  have h0 := h 0
  have h1 := h 1
  have h2 := h 2
  have h3 := h 3
  simp only [KeyFile.get] at h0 h1 h2 h3
  rw [h0, h1, h2, h3]

end Sys2Proof.Machine
end

