-- ==== Sys2Proof/Laws/Memory.lean ====
section
/-! SUPPORT. The laws of BUF: read after write, the canonical form, and what each shared memory operation can do
(20_memory.md R50 to R54). -/

namespace Sys2Proof.Machine

open Sys2Proof

/-! ## Reading after writing -/

@[simp] theorem Memory.get_nil (a : Nat) : Memory.get [] a = none := rfl

@[simp] theorem Memory.get_set_same (m : Memory) (a : Nat) (v : Byte) : (m.set a v).get a = some v := by
  induction m with
  | nil => simp [Memory.set, Memory.get]
  | cons c m ih =>
    obtain ⟨x, b⟩ := c
    unfold Memory.set
    split
    · simp [Memory.get]
    · split
      · simp [Memory.get]
      · rename_i h1 h2
        simpa [Memory.get, Ne.symm h2] using ih

theorem Memory.get_set_other (m : Memory) {a x : Nat} (v : Byte) (h : x ≠ a) : (m.set a v).get x = m.get x := by
  induction m with
  | nil => simp [Memory.set, Memory.get, Ne.symm h]
  | cons c m ih =>
    obtain ⟨y, b⟩ := c
    unfold Memory.set
    split
    · simp [Memory.get, Ne.symm h]
    · split
      · rename_i h1 h2
        subst h2
        simp [Memory.get, Ne.symm h]
      · simp [Memory.get, ih]

theorem Memory.get_set (m : Memory) (a x : Nat) (v : Byte) :
    (m.set a v).get x = if x = a then some v else m.get x := by
  split
  · rename_i h
    rw [h, Memory.get_set_same]
  · rename_i h
    exact Memory.get_set_other m v h

theorem Memory.get_below (m : Memory) (n a : Nat) : (m.below n).get a = if a < n then m.get a else none := by
  induction m with
  | nil => simp [Memory.below, Memory.get]
  | cons c m ih =>
    obtain ⟨x, b⟩ := c
    by_cases hx : x < n
    · have hb : Memory.below ((x, b) :: m) n = (x, b) :: Memory.below m n := by simp [Memory.below, hx]
      rw [hb, Memory.get, Memory.get, ih]
      by_cases hxa : x = a
      · subst hxa
        simp [hx]
      · simp [hxa]
    · have hb : Memory.below ((x, b) :: m) n = Memory.below m n := by simp [Memory.below, hx]
      rw [hb, Memory.get, ih]
      by_cases ha : a < n
      · rw [if_pos ha, if_pos ha, if_neg (by omega)]
      · rw [if_neg ha, if_neg ha]

/-! ## The canonical form -/

theorem Memory.wf_iff (m : Memory) : m.wf = true ↔ (m.map Prod.fst).Pairwise (· < ·) := by
  induction m with
  | nil => simp [Memory.wf]
  | cons c m ih =>
    cases m with
    | nil => simp [Memory.wf]
    | cons d m =>
      simp only [Memory.wf, Bool.and_eq_true, decide_eq_true_eq, ih]
      simp only [List.map_cons, List.pairwise_cons, List.mem_cons]
      constructor
      · rintro ⟨hcd, hd, hm⟩
        refine ⟨?_, hd, hm⟩
        rintro x (rfl | hx)
        · exact hcd
        · exact lt_trans hcd (hd x hx)
      · rintro ⟨hc, hd, hm⟩
        exact ⟨hc _ (Or.inl rfl), hd, hm⟩

theorem Memory.mem_keys_set (m : Memory) (a : Nat) (v : Byte) {x : Nat}
    (h : x ∈ (m.set a v).map Prod.fst) : x = a ∨ x ∈ m.map Prod.fst := by
  induction m with
  | nil => simpa [Memory.set] using h
  | cons c m ih =>
    obtain ⟨y, b⟩ := c
    unfold Memory.set at h
    split at h
    · simpa using h
    · split at h
      · rename_i h1 h2
        subst h2
        simp only [List.map_cons, List.mem_cons] at h ⊢
        tauto
      · simp only [List.map_cons, List.mem_cons] at h ⊢
        rcases h with h | h
        · exact Or.inr (Or.inl h)
        · rcases ih h with h | h
          · exact Or.inl h
          · exact Or.inr (Or.inr h)

/-- A write keeps the canonical form. -/
theorem Memory.set_wf (m : Memory) (a : Nat) (v : Byte) (h : m.wf = true) : (m.set a v).wf = true := by
  rw [Memory.wf_iff] at h ⊢
  induction m with
  | nil => simp [Memory.set]
  | cons c m ih =>
    obtain ⟨y, b⟩ := c
    simp only [List.map_cons, List.pairwise_cons] at h
    unfold Memory.set
    split
    · rename_i hay
      simp only [List.map_cons, List.pairwise_cons, List.mem_cons]
      refine ⟨?_, h⟩
      rintro x (rfl | hx)
      · exact hay
      · exact lt_trans hay (h.1 x hx)
    · split
      · rename_i h1 h2
        subst h2
        simpa using h
      · rename_i h1 h2
        simp only [List.map_cons, List.pairwise_cons]
        refine ⟨fun x hx => ?_, ih h.2⟩
        rcases Memory.mem_keys_set m a v hx with rfl | hx
        · omega
        · exact h.1 x hx

/-- Forgetting bytes keeps the canonical form. -/
theorem Memory.below_wf (m : Memory) (n : Nat) (h : m.wf = true) : (m.below n).wf = true := by
  rw [Memory.wf_iff] at h ⊢
  exact h.sublist (List.filter_sublist.map Prod.fst)

/-! ## A memory with exactly the addresses 0 to n - 1 -/

theorem Memory.wf_of_range {m : Memory} {n : Nat} (h : m.map Prod.fst = List.range n) : m.wf = true := by
  rw [Memory.wf_iff, h]
  exact List.pairwise_lt_range

theorem Memory.mem_keys_iff (m : Memory) (a : Nat) : a ∈ m.map Prod.fst ↔ (m.get a).isSome = true := by
  induction m with
  | nil => simp
  | cons c m ih =>
    obtain ⟨x, b⟩ := c
    by_cases h : x = a
    · simp [Memory.get, h]
    · simp only [List.map_cons, List.mem_cons, ih, Memory.get, if_neg h]
      constructor
      · rintro (rfl | h')
        · exact absurd rfl h
        · exact h'
      · exact Or.inr

/-- Exactly the addresses below `n` have a value (10_state.md R38(d), R34). -/
theorem Memory.isSome_get_of_range {m : Memory} {n : Nat} (h : m.map Prod.fst = List.range n) (a : Nat) :
    (m.get a).isSome = true ↔ a < n := by
  rw [← Memory.mem_keys_iff, h, List.mem_range]

theorem Memory.get_of_range_lt {m : Memory} {n a : Nat} (h : m.map Prod.fst = List.range n) (ha : a < n) :
    ∃ b, m.get a = some b :=
  Option.isSome_iff_exists.mp ((Memory.isSome_get_of_range h a).mpr ha)

theorem Memory.get_of_range_ge {m : Memory} {n a : Nat} (h : m.map Prod.fst = List.range n) (ha : n ≤ a) :
    m.get a = none := by
  have := (Memory.isSome_get_of_range h a).not.mpr (by omega)
  simpa using this

/-- A canonical memory whose addresses with a value are exactly 0 to n - 1 lists exactly those. -/
theorem Memory.keys_eq_range {m : Memory} {n : Nat} (hw : m.wf = true) (h : ∀ a, (m.get a).isSome = true ↔ a < n) :
    m.map Prod.fst = List.range n := by
  have hs := (Memory.wf_iff m).mp hw
  have hp : (m.map Prod.fst).Perm (List.range n) := by
    rw [List.perm_ext_iff_of_nodup (hs.imp fun h => Nat.ne_of_lt h) List.nodup_range]
    intro a
    rw [Memory.mem_keys_iff, h, List.mem_range]
  exact hp.eq_of_pairwise (le := (· < ·)) (fun _ _ _ _ h1 h2 => absurd h1 (Nat.lt_asymm h2)) hs List.pairwise_lt_range

/-- Two memories in canonical form that read alike are equal data. -/
theorem Memory.ext_get {m n : Memory} (hm : m.wf = true) (hn : n.wf = true) (h : ∀ a, m.get a = n.get a) : m = n := by
  rw [Memory.wf_iff] at hm hn
  induction m generalizing n with
  | nil =>
    cases n with
    | nil => rfl
    | cons d n =>
      obtain ⟨y, b⟩ := d
      simpa [Memory.get] using h y
  | cons c m ih =>
    obtain ⟨x, b⟩ := c
    simp only [List.map_cons, List.pairwise_cons] at hm
    have none_of (l : Memory) (z : Nat) (hl : ∀ w ∈ l.map Prod.fst, z < w) : l.get z = none := by
      by_contra hne
      have hmem := (Memory.mem_keys_iff l z).mpr (Option.isSome_iff_ne_none.mpr hne)
      exact lt_irrefl z (hl z hmem)
    cases n with
    | nil => simpa [Memory.get] using h x
    | cons d n =>
      obtain ⟨y, b'⟩ := d
      simp only [List.map_cons, List.pairwise_cons] at hn
      have hxy : x = y := by
        rcases lt_trichotomy x y with hlt | heq | hgt
        · have hx := h x
          rw [Memory.get, if_pos rfl, Memory.get, if_neg (by omega),
            none_of n x fun w hw => lt_trans hlt (hn.1 w hw)] at hx
          exact absurd hx (by simp)
        · exact heq
        · have hy := h y
          rw [Memory.get, if_neg (by omega), Memory.get, if_pos rfl,
            none_of m y fun w hw => lt_trans hgt (hm.1 w hw)] at hy
          exact absurd hy (by simp)
      subst hxy
      have hb : b = b' := by simpa [Memory.get] using h x
      subst hb
      have hmn : m = n := ih hm.2 hn.2 fun a => by
        by_cases ha : x = a
        · subst ha
          rw [none_of m x hm.1, none_of n x hn.1]
        · simpa [Memory.get, ha] using h a
      rw [hmn]

/-! ## MemRead, MemWrite and the accesses built from them -/

theorem memRead_eq_ok_iff (s : State) (a : Nat) (b : Byte) : memRead s a = .ok b ↔ s.buf.get a = some b := by
  unfold memRead
  cases s.buf.get a <;> simp

theorem memWrite_eq_ok_iff (a : Nat) (v : Byte) (s t : State) :
    memWrite a v s = .ok t ↔ a < s.cfg.bufCap ∧ t = { s with buf := s.buf.set a v } := by
  unfold memWrite
  split
  · rename_i h
    simp only [Except.ok.injEq, h, true_and]
    exact eq_comm
  · rename_i h
    simp [h]

/-- Everything writeBytes does when it completes: only BUF changes, the bytes of the list stand at consecutive addresses,
every other byte is as before, and the canonical form is kept. -/
theorem writeBytes_spec {bs : List Byte} {a : Nat} {s t : State} (h : writeBytes a bs s = .ok t) :
    t = { s with buf := t.buf } ∧
      (∀ x, t.buf.get x = if a ≤ x ∧ x < a + bs.length then bs[x - a]? else s.buf.get x) ∧
      (s.buf.wf = true → t.buf.wf = true) := by
  induction bs generalizing a s with
  | nil =>
    simp only [writeBytes, Except.ok.injEq] at h
    subst h
    refine ⟨rfl, fun x => ?_, id⟩
    rw [if_neg (by simp)]
  | cons b bs ih =>
    unfold writeBytes at h
    cases hw : memWrite a b s with
    | error f => simp [hw] at h
    | ok u =>
      simp only [hw] at h
      obtain ⟨-, hu⟩ := (memWrite_eq_ok_iff a b s u).mp hw
      obtain ⟨heq, hget, hwf⟩ := ih h
      subst hu
      refine ⟨heq, fun x => ?_, fun h0 => hwf (Memory.set_wf _ _ _ h0)⟩
      rw [hget x, Memory.get_set, List.length_cons]
      by_cases hx : a + 1 ≤ x ∧ x < a + 1 + bs.length
      · rw [if_pos hx, if_pos (by omega), show x - a = (x - (a + 1)) + 1 by omega, List.getElem?_cons_succ]
      · rw [if_neg hx]
        by_cases hxa : x = a
        · subst hxa
          simp
        · rw [if_neg hxa, if_neg (by omega)]

/-- writeBytes completes when every address is below BUF_CAP. -/
theorem writeBytes_completes {bs : List Byte} {a : Nat} {s : State} (h : a + bs.length ≤ s.cfg.bufCap) :
    ∃ t, writeBytes a bs s = .ok t := by
  induction bs generalizing a s with
  | nil => exact ⟨s, rfl⟩
  | cons b bs ih =>
    rw [List.length_cons] at h
    have hw : memWrite a b s = .ok { s with buf := s.buf.set a b } :=
      (memWrite_eq_ok_iff _ _ _ _).mpr ⟨by omega, rfl⟩
    simp only [writeBytes, hw]
    exact ih (s := { s with buf := s.buf.set a b }) (by simpa using (by omega : a + 1 + bs.length ≤ s.cfg.bufCap))

/-- The byte blockByte gives, when the bytes below LEN have a value. -/
theorem blockByte_eq_ok (s : State) (i j : Nat) {b : Byte}
    (h : if 8 * i + j < s.len then s.buf.get (8 * i + j) = some b else b = 0x00#8) :
    blockByte s i j = .ok b := by
  unfold blockByte blockAddr
  split at h
  · rename_i hlt
    rw [if_pos hlt]
    exact (memRead_eq_ok_iff _ _ _).mpr h
  · rename_i hlt
    rw [if_neg hlt, h]

/-- BlockRead completes when the eight bytes are known (20_memory.md R54). -/
theorem blockRead_eq_ok (s : State) (i : Nat) (b : Nat → Byte)
    (h : ∀ j < 8, if 8 * i + j < s.len then s.buf.get (8 * i + j) = some (b j) else b j = 0x00#8) :
    blockRead s i = .ok ⟨b 0, b 1, b 2, b 3, b 4, b 5, b 6, b 7⟩ := by
  simp only [blockRead, blockByte_eq_ok s i 0 (h 0 (by omega)), blockByte_eq_ok s i 1 (h 1 (by omega)),
    blockByte_eq_ok s i 2 (h 2 (by omega)), blockByte_eq_ok s i 3 (h 3 (by omega)),
    blockByte_eq_ok s i 4 (h 4 (by omega)), blockByte_eq_ok s i 5 (h 5 (by omega)),
    blockByte_eq_ok s i 6 (h 6 (by omega)), blockByte_eq_ok s i 7 (h 7 (by omega))]
  rfl

/-- tailMatches, when every byte it looks at has a value: whether all of them equal `p` (43_padding.md R131). -/
theorem tailMatches_eq_ok (s : State) (p : Byte) {js : List Nat}
    (h : ∀ j ∈ js, (s.buf.get (s.len - j)).isSome = true) :
    tailMatches s p js = .ok (js.all fun j => decide (s.buf.get (s.len - j) = some p)) := by
  induction js with
  | nil => rfl
  | cons j js ih =>
    obtain ⟨b, hb⟩ := Option.isSome_iff_exists.mp (h j (by simp))
    have hr : memRead s (tailAddr s j) = .ok b := (memRead_eq_ok_iff _ _ _).mpr hb
    simp only [tailMatches, hr, List.all_cons, hb, Option.some.injEq]
    by_cases hbp : b = p
    · rw [if_pos hbp, ih fun j hj => h j (by simp [hj])]
      simp [hbp]
    · rw [if_neg hbp]
      simp [hbp]

theorem orFault_eq_next_iff {α : Type} (r : Except Fault α) (f : α → Result) (t : State) :
    orFault r f = .next t ↔ ∃ x, r = .ok x ∧ f x = .next t := by
  unfold orFault
  cases r <;> simp

end Sys2Proof.Machine
end

