-- ==== Sys2Proof/Laws/Commands.lean ====
section
/-! SUPPORT. One inversion lemma per command that does more than one thing: if it answers a next state, then one of the
cases of its rule holds. Later proofs cite these and unfold no meaning. -/

namespace Sys2Proof.Machine

open Sys2Proof

/-! ## Key deriver -/

theorem execKbyte_cases {b : Byte} {s t : State} (h : execKbyte b s = .next t) :
    (s.kacc = false ∧ t = raise .seq s) ∨
    (s.kacc = true ∧ s.kpos < 16#5 ∧ t = respond .ok 0x00#8 (accumulate b s)) ∨
    (s.kacc = true ∧ ¬ s.kpos < 16#5 ∧ t = respond .ok 0x00#8 s) := by
  unfold execKbyte at h
  split at h
  · rename_i hk
    exact .inl ⟨hk, by simpa using h.symm⟩
  · rename_i hk
    split at h
    · rename_i hp
      exact .inr (.inl ⟨by simpa using hk, hp, by simpa using h.symm⟩)
    · rename_i hp
      exact .inr (.inr ⟨by simpa using hk, hp, by simpa using h.symm⟩)

theorem execKfin_cases {s t : State} (h : execKfin s = .next t) :
    (s.kacc = false ∧ t = raise .seq s) ∨
    (s.kacc = true ∧
      t = respond .ok (s.kpos.setWidth 8) { zeroFill 16 s with kacc := false, kvalid := true }) := by
  unfold execKfin at h
  split at h
  · rename_i hk
    exact .inl ⟨hk, by simpa using h.symm⟩
  · rename_i hk
    exact .inr ⟨by simpa using hk, by simpa using h.symm⟩

/-- The zero fill changes K and KPOS only. -/
theorem zeroFill_frame (n : Nat) (s : State) :
    zeroFill n s = { s with k := (zeroFill n s).k, kpos := (zeroFill n s).kpos } := by
  induction n generalizing s with
  | zero => rfl
  | succ n ih =>
    unfold zeroFill
    split
    · rw [ih (accumulate 0x00#8 s)]
      rfl
    · rfl

/-! ## Cipher -/

theorem execEnc_cases {s t : State} (h : execEnc s = .next t) :
    (s.kvalid = false ∧ t = raise .seq s) ∨ (s.kvalid = true ∧ t = startRun .enc 0#32 s) := by
  unfold execEnc at h
  split at h
  · rename_i hk
    exact .inl ⟨hk, by simpa using h.symm⟩
  · rename_i hk
    exact .inr ⟨by simpa using hk, by simpa using h.symm⟩

theorem execDec_cases {s t : State} (h : execDec s = .next t) :
    (s.kvalid = false ∧ t = raise .seq s) ∨ (s.kvalid = true ∧ t = startRun .dec dsum0 s) := by
  unfold execDec at h
  split at h
  · rename_i hk
    exact .inl ⟨hk, by simpa using h.symm⟩
  · rename_i hk
    exact .inr ⟨by simpa using hk, by simpa using h.symm⟩

/-- Everything a micro-step can do. -/
theorem microStep_cases (s : State) :
    (s.phase = .idle ∧ microStep s = s) ∨
    (s.phase = .enc ∧ microStep s = endRun (encryptRound s)) ∨
    (s.phase = .dec ∧ microStep s = endRun (decryptRound s)) := by
  unfold microStep
  cases hp : s.phase
  · exact .inl ⟨rfl, rfl⟩
  · exact .inr (.inl ⟨rfl, rfl⟩)
  · exact .inr (.inr ⟨rfl, rfl⟩)

theorem endRun_cases (s : State) :
    (s.rc = 32#6 ∧ endRun s = respond .ok 0x00#8 { s with phase := .idle }) ∨ (s.rc ≠ 32#6 ∧ endRun s = s) := by
  unfold endRun
  split
  · rename_i h
    exact .inl ⟨h, rfl⟩
  · rename_i h
    exact .inr ⟨h, rfl⟩

theorem microStep_idle {s : State} (h : s.phase = .idle) : microStep s = s := by
  unfold microStep
  rw [h]

theorem finishRun_idle {s : State} (n : Nat) (h : s.phase = .idle) : finishRun n s = s := by
  cases n with
  | zero => rfl
  | succ n => simp [finishRun, h]

/-! ## Padding -/

theorem execPad_cases {s t : State} (h : execPad s = .next t) :
    (s.len = s.cfg.bufCap ∧ t = raise .overflow s) ∨
    (s.len ≠ s.cfg.bufCap ∧ ∃ u,
      writeBytes s.len (List.replicate (padValue s.len) (BitVec.ofNat 8 (padValue s.len))) s = .ok u ∧
      t = respond .ok (BitVec.ofNat 8 (padValue s.len)) { u with len := s.len + padValue s.len }) := by
  unfold execPad at h
  split at h
  · rename_i hl
    exact .inl ⟨hl, by simpa using h.symm⟩
  · rename_i hl
    obtain ⟨u, hu, ht⟩ := (orFault_eq_next_iff _ _ _).mp h
    exact .inr ⟨hl, u, hu, by simpa using ht.symm⟩

theorem execUnpad_cases {s t : State} (h : execUnpad s = .next t) :
    t = raise .padfail s ∨
    (s.len ≠ 0 ∧ ∃ p, s.buf.get (s.len - 1) = some p ∧ p ≠ 0x00#8 ∧ p.toNat ≤ 8 ∧ p.toNat ≤ s.len ∧
      tailMatches s p (List.range' 1 p.toNat) = .ok true ∧ t = respond .ok p (shrinkTo (s.len - p.toNat) s)) := by
  unfold execUnpad at h
  split at h
  · exact .inl (by simpa using h.symm)
  · rename_i hl
    obtain ⟨p, hp, h⟩ := (orFault_eq_next_iff _ _ _).mp h
    split at h
    · exact .inl (by simpa using h.symm)
    · rename_i h0
      split at h
      · exact .inl (by simpa using h.symm)
      · rename_i h8
        split at h
        · exact .inl (by simpa using h.symm)
        · rename_i hpl
          obtain ⟨m, hm, h⟩ := (orFault_eq_next_iff _ _ _).mp h
          cases m with
          | false => exact .inl (by simpa using h.symm)
          | true =>
            exact .inr ⟨hl, p, (memRead_eq_ok_iff _ _ _).mp hp, h0, by omega, by omega, hm,
              by simpa using h.symm⟩

/-! ## Codec -/

theorem execBpush_cases {b : Byte} {s t : State} (h : execBpush b s = .next t) :
    (s.len = s.cfg.bufCap ∧ t = raise .overflow s) ∨
    (s.len < s.cfg.bufCap ∧ t = respond .ok 0x00#8 { s with buf := s.buf.set s.len b, len := s.len + 1 }) := by
  unfold execBpush at h
  split at h
  · rename_i hl
    exact .inl ⟨hl, by simpa using h.symm⟩
  · obtain ⟨u, hu, ht⟩ := (orFault_eq_next_iff _ _ _).mp h
    obtain ⟨hlt, rfl⟩ := (memWrite_eq_ok_iff _ _ _ _).mp hu
    exact .inr ⟨hlt, by simpa [appendAddr] using ht.symm⟩

theorem execBread_cases {s t : State} (h : execBread s = .next t) :
    (s.len ≤ s.rp ∧ t = respond .empty 0x00#8 s) ∨
    (s.rp < s.len ∧ ∃ b, s.buf.get s.rp = some b ∧ t = respond .ok b { s with rp := s.rp + 1 }) := by
  unfold execBread at h
  split at h
  · rename_i hl
    exact .inl ⟨hl, by simpa using h.symm⟩
  · rename_i hl
    obtain ⟨b, hb, ht⟩ := (orFault_eq_next_iff _ _ _).mp h
    exact .inr ⟨by omega, b, (memRead_eq_ok_iff _ _ _).mp hb, by simpa using ht.symm⟩

theorem execLdb_cases {s t : State} (h : execLdb s = .next t) :
    ∃ c, blockRead s s.bidx = .ok c ∧
      t = respond .ok (BitVec.ofNat 8 (chunkBytes s)) { s with v := packChunk c } := by
  obtain ⟨c, hc, ht⟩ := (orFault_eq_next_iff _ _ _).mp h
  exact ⟨c, hc, by simpa using ht.symm⟩

theorem execStb_cases {s t : State} (h : execStb s = .next t) :
    (s.len < 8 * s.bidx ∧ t = raise .seq s) ∨
    (8 * s.bidx ≤ s.len ∧ s.cfg.bufCap < 8 * s.bidx + 8 ∧ t = raise .overflow s) ∨
    (8 * s.bidx ≤ s.len ∧ 8 * s.bidx + 8 ≤ s.cfg.bufCap ∧ ∃ u,
      writeBytes (8 * s.bidx) (unpackBlock s.v).bytes s = .ok u ∧
      t = respond .ok 0x00#8 { u with len := max s.len (8 * s.bidx + 8), bidx := s.bidx + 1 }) := by
  unfold execStb at h
  split at h
  · rename_i hl
    exact .inl ⟨hl, by simpa using h.symm⟩
  · rename_i hl
    split at h
    · rename_i hc
      exact .inr (.inl ⟨by omega, hc, by simpa using h.symm⟩)
    · rename_i hc
      obtain ⟨u, hu, ht⟩ := (orFault_eq_next_iff _ _ _).mp h
      exact .inr (.inr ⟨by omega, by omega, u, hu, by simpa using ht.symm⟩)

end Sys2Proof.Machine
end

