-- ==== Sys2Proof/Laws/Encoding.lean ====
section
/-! SUPPORT. Small laws of the encoding. -/

namespace Sys2Proof

/-- Every command is well formed: the type of its operand leaves the check nothing to refuse (WellFormed.lean). -/
theorem Instr.wellFormed_true (i : Instr) : i.wellFormed = true := by
  cases i with
  | kbyte b =>
    have := b.isLt
    simp only [Instr.wellFormed, Instr.line, AsmLine.wellFormed, Mnemonic.form, AsmOperand.wellFormed, decide_eq_true_eq]
    omega
  | bpush b =>
    have := b.isLt
    simp only [Instr.wellFormed, Instr.line, AsmLine.wellFormed, Mnemonic.form, AsmOperand.wellFormed, decide_eq_true_eq]
    omega
  | stat | clrf | kinit | kfin | bclr | brew | bread | pad | unpad | ldb | stb | enc | dec => rfl

/-- The line a command is written as assembles to the command (30_encoding.md R78). -/
theorem Instr.assemble_line (i : Instr) : i.line.assemble = some i := by
  have h : i.line.wellFormed = true := i.wellFormed_true
  unfold AsmLine.assemble
  rw [if_pos h]
  cases i <;> simp [Instr.line, AsmOperand.value]

theorem opField_append (a b : Byte) : opField (a ++ b) = a := by
  unfold opField
  ext i hi
  have h : (a ++ b).getLsbD (8 + i) = _ := BitVec.getLsbD_append
  rw [BitVec.getElem_extractLsb']
  refine h.trans ?_
  rw [if_neg (by omega), Nat.add_sub_cancel_left, BitVec.getLsbD_eq_getElem]

theorem immField_append (a b : Byte) : immField (a ++ b) = b := by
  unfold immField
  ext i hi
  have h : (a ++ b).getLsbD (0 + i) = _ := BitVec.getLsbD_append
  rw [BitVec.getElem_extractLsb']
  refine h.trans ?_
  rw [if_pos (by omega), Nat.zero_add, BitVec.getLsbD_eq_getElem]

theorem opField_append_immField (w : CmdWord) : opField w ++ immField w = w := by
  unfold opField immField
  ext i hi
  simp only [BitVec.getElem_append, BitVec.getElem_extractLsb']
  split
  · rw [Nat.zero_add, BitVec.getLsbD_eq_getElem]
  · rw [BitVec.getLsbD_eq_getElem (by omega)]
    congr 1
    omega

/-- The mask 0xFF00 keeps the opcode byte and clears the operand byte. -/
theorem append_and_ff00 (a b : Byte) : (a ++ b : CmdWord) &&& 0xFF00#16 = a ++ 0x00#8 := by
  have hm : (0xFF00#16 : CmdWord) = 0xFF#8 ++ 0x00#8 := by decide
  rw [hm, BitVec.and_append]
  have hb : b &&& 0x00#8 = 0x00#8 := BitVec.and_zero
  have ha : a &&& 0xFF#8 = a := BitVec.and_allOnes
  rw [hb, ha]

end Sys2Proof
end

