-- ==== Sys2Proof/Laws/Exec.lean ====
section
/-! SUPPORT. Everything a command can do, said once for all commands. -/

namespace Sys2Proof.Machine

open Sys2Proof

/-- The outcomes of a command that answers a next state, each refusal and each effect with its guard. -/
theorem exec_cases {i : Instr} {s t : State} (h : exec i s = .next t) :
    (i = .stat ∧ t = respond .ok (status s) s) ∨
    (i = .clrf ∧ t = respond .ok 0x00#8 (clearSticky s)) ∨
    (i = .kinit ∧ t = respond .ok 0x00#8
      { s with k := ⟨0#32, 0#32, 0#32, 0#32⟩, kpos := 0#5, kacc := true, kvalid := false }) ∨
    (((∃ b, i = .kbyte b) ∨ i = .kfin) ∧ s.kacc = false ∧ t = raise .seq s) ∨
    (∃ b, i = .kbyte b ∧ s.kacc = true ∧ s.kpos < 16#5 ∧ t = respond .ok 0x00#8 (accumulate b s)) ∨
    (∃ b, i = .kbyte b ∧ s.kacc = true ∧ ¬ s.kpos < 16#5 ∧ t = respond .ok 0x00#8 s) ∨
    (i = .kfin ∧ s.kacc = true ∧ t = respond .ok (s.kpos.setWidth 8)
      { s with k := (zeroFill 16 s).k, kpos := (zeroFill 16 s).kpos, kacc := false, kvalid := true }) ∨
    (i = .bclr ∧ t = respond .ok 0x00#8 { shrinkTo 0 s with rp := 0, bidx := 0 }) ∨
    (((∃ b, i = .bpush b) ∨ i = .pad) ∧ s.len = s.cfg.bufCap ∧ t = raise .overflow s) ∨
    (∃ b, i = .bpush b ∧ s.len < s.cfg.bufCap ∧
      t = respond .ok 0x00#8 { s with buf := s.buf.set s.len b, len := s.len + 1 }) ∨
    (i = .brew ∧ t = respond .ok 0x00#8 { s with rp := 0, bidx := 0 }) ∨
    (i = .bread ∧ s.len ≤ s.rp ∧ t = respond .empty 0x00#8 s) ∨
    (i = .bread ∧ s.rp < s.len ∧ ∃ b, t = respond .ok b { s with rp := s.rp + 1 }) ∨
    (i = .pad ∧ s.len ≠ s.cfg.bufCap ∧ ∃ u,
      writeBytes s.len (List.replicate (padValue s.len) (BitVec.ofNat 8 (padValue s.len))) s = .ok u ∧
      t = respond .ok (BitVec.ofNat 8 (padValue s.len)) { s with buf := u.buf, len := s.len + padValue s.len }) ∨
    (i = .unpad ∧ t = raise .padfail s) ∨
    (i = .unpad ∧ s.len ≠ 0 ∧ ∃ p, p.toNat ≤ 8 ∧ p.toNat ≤ s.len ∧
      t = respond .ok p (shrinkTo (s.len - p.toNat) s)) ∨
    (i = .ldb ∧ ∃ c, t = respond .ok (BitVec.ofNat 8 (chunkBytes s)) { s with v := packChunk c }) ∨
    (i = .stb ∧ s.len < 8 * s.bidx ∧ t = raise .seq s) ∨
    (i = .stb ∧ 8 * s.bidx ≤ s.len ∧ s.cfg.bufCap < 8 * s.bidx + 8 ∧ t = raise .overflow s) ∨
    (i = .stb ∧ 8 * s.bidx ≤ s.len ∧ 8 * s.bidx + 8 ≤ s.cfg.bufCap ∧ ∃ u,
      writeBytes (8 * s.bidx) (unpackBlock s.v).bytes s = .ok u ∧
      t = respond .ok 0x00#8 { s with buf := u.buf, len := max s.len (8 * s.bidx + 8), bidx := s.bidx + 1 }) ∨
    ((i = .enc ∨ i = .dec) ∧ s.kvalid = false ∧ t = raise .seq s) ∨
    (i = .enc ∧ s.kvalid = true ∧ t = startRun .enc 0#32 s) ∨
    (i = .dec ∧ s.kvalid = true ∧ t = startRun .dec dsum0 s) := by
  cases i with
  | stat | clrf | kinit | bclr | brew =>
    simp only [exec, execStat, execClrf, execKinit, execBclr, execBrew, Host.Outcome.next.injEq] at h; subst h; simp
  | kbyte b =>
    rcases execKbyte_cases h with ⟨hk, rfl⟩ | ⟨hk, hp, rfl⟩ | ⟨hk, hp, rfl⟩
    · simp [hk]
    · simp [hk, hp]
    · simp [hk, hp]
  | kfin =>
    rcases execKfin_cases h with ⟨hk, rfl⟩ | ⟨hk, rfl⟩
    · simp [hk]
    · have := zeroFill_frame 16 s
      rw [this]; simp [hk]
  | bpush b => rcases execBpush_cases h with ⟨hk, rfl⟩ | ⟨hk, rfl⟩ <;> simp [hk]
  | bread =>
    rcases execBread_cases h with ⟨hk, rfl⟩ | ⟨hk, b, _, rfl⟩
    · simp [hk]
    · simp [hk]; first | exact ⟨b, rfl⟩ | exact .inr ⟨b, rfl⟩
  | pad =>
    rcases execPad_cases h with ⟨hk, rfl⟩ | ⟨hk, u, hu, rfl⟩
    · simp [hk]
    · have := (writeBytes_spec hu).1
      simp [hk]; refine ⟨u, hu, ?_⟩; rw [this]
  | unpad =>
    rcases execUnpad_cases h with rfl | ⟨hl, p, _, _, h8, hpl, _, rfl⟩
    · simp
    · simp [hl]; right; exact ⟨p, h8, hpl, rfl⟩
  | ldb => obtain ⟨c, _, rfl⟩ := execLdb_cases h; simp; exact ⟨c, rfl⟩
  | stb =>
    rcases execStb_cases h with ⟨hk, rfl⟩ | ⟨hk, hk', rfl⟩ | ⟨hk, hk', u, hu, rfl⟩
    · simp [hk]
    · simp [hk, hk']
    · have := (writeBytes_spec hu).1
      simp [hk, hk']; right; right; refine ⟨u, hu, ?_⟩; rw [this]
  | enc => rcases execEnc_cases h with ⟨hk, rfl⟩ | ⟨hk, rfl⟩ <;> simp [hk]
  | dec => rcases execDec_cases h with ⟨hk, rfl⟩ | ⟨hk, rfl⟩ <;> simp [hk]

end Sys2Proof.Machine
end

