-- ==== Sys2Proof/Laws/PerInstr.lean ====
section
/-! SUPPORT. The family OpcodeRow: each command's word lies in its row of the opcode map (30_encoding.md R74). -/

namespace Sys2Proof.Laws.OpcodeRow

open Sys2Proof

/-- The command's word, masked, is the row's match (R74). -/
def Statement (i : Instr) : Prop := encode i &&& i.tableMask = i.tableMatch

theorem stat : Statement .stat := by unfold Statement; decide
theorem clrf : Statement .clrf := by unfold Statement; decide
theorem kinit : Statement .kinit := by unfold Statement; decide
theorem kfin : Statement .kfin := by unfold Statement; decide
theorem bclr : Statement .bclr := by unfold Statement; decide
theorem brew : Statement .brew := by unfold Statement; decide
theorem bread : Statement .bread := by unfold Statement; decide
theorem pad : Statement .pad := by unfold Statement; decide
theorem unpad : Statement .unpad := by unfold Statement; decide
theorem ldb : Statement .ldb := by unfold Statement; decide
theorem stb : Statement .stb := by unfold Statement; decide
theorem enc : Statement .enc := by unfold Statement; decide
theorem dec : Statement .dec := by unfold Statement; decide

theorem kbyte (imm8 : Byte) : Statement (.kbyte imm8) := append_and_ff00 0x11#8 imm8
theorem bpush (imm8 : Byte) : Statement (.bpush imm8) := append_and_ff00 0x21#8 imm8

end Sys2Proof.Laws.OpcodeRow
end

