-- ==== Sys2Proof/Laws/Step.lean ====
section
/-! SUPPORT. Everything a step can do, said once. -/

namespace Sys2Proof.Machine

open Sys2Proof

/-- The cases of a step that answers a next state: a reset; a command accepted; an illegal word accepted; a micro-step or a
step of waiting, in which at most a `quiet` event is consumed. -/
theorem step_cases {s t : State} (h : step s = .next t) :
    (∃ rest, s.inbox = .reset :: rest ∧ t = applyReset rest s) ∨
    (∃ w rest i, s.phase = .idle ∧ s.inbox = .command w :: rest ∧ decode w = .ok i ∧
      exec i (consume rest s) = .next t) ∨
    (∃ w rest e, s.phase = .idle ∧ s.inbox = .command w :: rest ∧ decode w = .error e ∧
      t = raise .illegal (consume rest s)) ∨
    (∃ rest, t = microStep (consume rest s) ∧
      ((s.inbox = .quiet :: rest) ∨ (s.inbox = [] ∧ rest = []) ∨
        (s.phase ≠ .idle ∧ rest = s.inbox ∧ ∃ w r, s.inbox = .command w :: r))) := by
  unfold step advance at h
  split at h
  · rename_i rest hi
    exact .inl ⟨rest, hi, by simpa using h.symm⟩
  · rename_i rest hi
    exact .inr (.inr (.inr ⟨rest, by simpa using h.symm, .inl hi⟩))
  · rename_i w rest hi
    split at h
    · rename_i hp
      unfold acceptWord at h
      cases hd : decode w with
      | ok i => exact .inr (.inl ⟨w, rest, i, hp, hi, hd, by simpa [hd] using h⟩)
      | error e => exact .inr (.inr (.inl ⟨w, rest, e, hp, hi, hd, by simpa [hd] using h.symm⟩))
    · rename_i hp
      exact .inr (.inr (.inr ⟨s.inbox, by simpa [hi] using h.symm, .inr (.inr ⟨hp, rfl, w, rest, hi⟩)⟩))
  · rename_i hi
    exact .inr (.inr (.inr ⟨[], by simpa using h.symm, .inr (.inl ⟨hi, rfl⟩)⟩))

@[simp] theorem thenDo_next (t : State) (f : State → Result) : thenDo (.next t) f = f t := rfl

theorem thenDo_eq_next_iff (r : Result) (f : State → Result) (t : State) :
    thenDo r f = .next t ↔ ∃ u, r = .next u ∧ f u = .next t := by
  cases r <;> simp [thenDo]

end Sys2Proof.Machine
end

