-- ==== Sys2Proof/Tests/Slice0.lean ====
section
/-! SUPPORT. Tests with the expected values of 95_test_vectors.md (the section stands above each group), and for every
statement with hypotheses a witness that meets them all. -/

namespace Sys2Proof.Tests

open Sys2Proof Sys2Proof.Machine

/-! ## Helpers -/

/-- One value of the state an outcome gives. -/
def look {α : Type} (r : Result) (f : State → α) : Option α :=
  match r with
  | .next t    => some (f t)
  | .fault _   => none
  | .refused _ => none

/-- The state after reset with capacity `8 * (c + 1)` and these bytes pushed. -/
def filled (c : Nat) (bs : List Byte) : State :=
  { State.resetOf ⟨c⟩ with buf := (List.range bs.length).zip bs, len := bs.length }

/-- The key of "0123456789abcdef" (section 3, KD1). -/
def kd1 : KeyFile := ⟨0x30313233#32, 0x34353637#32, 0x38396162#32, 0x63646566#32⟩

/-- With a finished key. -/
def keyed (k : KeyFile) (s : State) : State := { s with k := k, kvalid := true, kpos := 16#5 }

/-- The all-zero key. -/
def zeroKey : KeyFile := ⟨0#32, 0#32, 0#32, 0#32⟩

/-- With these events in the inbox. -/
def withInbox (es : List HostEvent) (s : State) : State := { s with inbox := es }

/-- A run of ENC after `r` rounds of section 2's T1, with the row's V and the schedule's SUM. -/
def t1Run (r : BitVec 6) (v0 v1 sum : Word) : State :=
  { keyed zeroKey (State.resetOf ⟨0⟩) with phase := .enc, rc := r, v := ⟨v0, v1⟩, sum := sum }

/-- An open derivation. -/
def deriving1 (kpos : BitVec 5) (k : KeyFile) : State := { State.resetOf ⟨0⟩ with kacc := true, kpos := kpos, k := k }

/-! ## Assembler lines: each check of WellFormed refuses an ill-formed line (30_encoding.md R78) -/

theorem test_line_n_form_with_operand : AsmLine.wellFormed ⟨.STAT, some (.decimal 0)⟩ = false := by decide
theorem test_line_b_form_without_operand : AsmLine.wellFormed ⟨.KBYTE, none⟩ = false := by decide
theorem test_line_decimal_too_large : AsmLine.wellFormed ⟨.BPUSH, some (.decimal 256)⟩ = false := by decide
theorem test_line_hexadecimal_too_large : AsmLine.wellFormed ⟨.BPUSH, some (.hexadecimal 0x100)⟩ = false := by decide
theorem test_line_character_not_printable :
    AsmLine.wellFormed ⟨.BPUSH, some (.quoted (Char.ofNat 0x1F))⟩ = false ∧
      AsmLine.wellFormed ⟨.BPUSH, some (.quoted (Char.ofNat 0x7F))⟩ = false := by decide
theorem test_line_of_h : AsmLine.assemble ⟨.BPUSH, some (.quoted 'h')⟩ = some (.bpush 0x68#8) := by decide

/-! ## Decoding, section 6 -/

theorem test_decode_system : decode 0x0100#16 = .ok .stat ∧ decode 0x0200#16 = .ok .clrf := by decide
theorem test_decode_key : decode 0x1000#16 = .ok .kinit ∧ decode 0x11A5#16 = .ok (.kbyte 0xA5#8) ∧
    decode 0x1200#16 = .ok .kfin := by decide
theorem test_decode_buffer : decode 0x2000#16 = .ok .bclr ∧ decode 0x2168#16 = .ok (.bpush 0x68#8) ∧
    decode 0x2200#16 = .ok .brew ∧ decode 0x2300#16 = .ok .bread := by decide
theorem test_decode_padding : decode 0x2400#16 = .ok .pad ∧ decode 0x2500#16 = .ok .unpad := by decide
theorem test_decode_packer : decode 0x3000#16 = .ok .ldb ∧ decode 0x3100#16 = .ok .stb := by decide
theorem test_decode_cipher : decode 0x4000#16 = .ok .enc ∧ decode 0x4100#16 = .ok .dec := by decide
theorem test_decode_illegal : decodeTableWord 16 0x0000 = none ∧ decodeTableWord 16 0xFFFF = none ∧
    decodeTableWord 16 0xFF00 = none ∧ decodeTableWord 16 0x0101 = none ∧ decodeTableWord 16 0x4001 = none ∧
    decodeTableWord 16 0x2301 = none ∧ decodeTableWord 16 0x12FF = none ∧ decodeTableWord 16 0x1300 = none ∧
    decodeTableWord 16 0x2600 = none ∧ decodeTableWord 16 0x3200 = none ∧ decodeTableWord 16 0x4200 = none ∧
    decodeTableWord 16 0x0300 = none ∧ decodeTableWord 16 0x5000 = none := by decide
theorem test_illegal_word_answers : look (step (withInbox [.command 0x4001#16] (State.resetOf ⟨0⟩))) (fun t => (t.resp, t.ill)) =
    some (some 0x3000#16, true) := by decide
theorem test_fetch_word_runs : look (step (State.reset.withFetchWord 16 0x2141)) (fun t => (t.buf, t.len)) =
    some ([(0, 0x41#8)], 1) := by decide

/-! ## System commands, sections 7 and 8 -/

theorem test_stat_e1 : look (exec .stat { filled 0 (List.replicate 8 0x01#8) with seqerr := true, ovf := true }) (·.resp) =
    some (some 0x00AC#16) := by decide
theorem test_stat_key_and_more : look (exec .stat (keyed kd1 (filled 7 (List.replicate 8 0x01#8)))) (·.resp) =
    some (some 0x000D#16) := by decide
theorem test_clrf_e1 : look (exec .clrf { filled 0 (List.replicate 8 0x01#8) with seqerr := true, ovf := true })
    (fun t => (status t, t.resp)) = some (0x0C#8, some 0x0000#16) := by decide

/-! ## Key deriver, section 3 -/

theorem test_kinit : look (exec .kinit (keyed kd1 State.reset)) (fun t => (t.k, t.kpos, t.kacc, t.kvalid)) =
    some (zeroKey, 0#5, true, false) := by decide
theorem test_kbyte_second_word : look (exec (.kbyte 0x65#8) (deriving1 4#5 ⟨0x61626364#32, 0#32, 0#32, 0#32⟩))
    (fun t => (t.k, t.kpos)) = some (⟨0x61626364#32, 0x00000065#32, 0#32, 0#32⟩, 5#5) := by decide
theorem test_kbyte_not_sign_extended : look (exec (.kbyte 0x80#8) (deriving1 0#5 zeroKey)) (·.k) =
    some ⟨0x00000080#32, 0#32, 0#32, 0#32⟩ := by decide
theorem test_kfin_kd3 : look (exec .kfin (deriving1 5#5 ⟨0x61626364#32, 0x00000065#32, 0#32, 0#32⟩))
    (fun t => (t.k, t.kpos, t.kvalid, t.resp)) =
    some (⟨0x61626364#32, 0x65000000#32, 0#32, 0#32⟩, 16#5, true, some 0x0005#16) := by decide
theorem test_kfin_refused : look (exec .kfin State.reset) (fun t => (t.resp, t.seqerr)) = some (some 0x5000#16, true) := by
  decide

/-! ## Padding, section 4 -/

theorem test_pad_pa3 : look (exec .pad (filled 7 [0x68#8, 0x65#8, 0x6C#8, 0x6C#8, 0x6F#8])) (fun t => (region t, t.resp)) =
    some ([0x68#8, 0x65#8, 0x6C#8, 0x6C#8, 0x6F#8, 0x03#8, 0x03#8, 0x03#8], some 0x0003#16) := by decide
theorem test_pad_pa5 : look (exec .pad (filled 7 (List.replicate 8 0x41#8))) (fun t => (t.len, t.resp)) =
    some (16, some 0x0008#16) := by decide
theorem test_unpad_up16 : look (exec .unpad (filled 7 [0x41#8, 0x03#8, 0x03#8, 0x03#8, 0x03#8])) (fun t => (t.buf, t.resp)) =
    some ([(0, 0x41#8), (1, 0x03#8)], some 0x0003#16) := by decide
theorem test_unpad_up8 : look (exec .unpad (filled 7 [0x03#8, 0x03#8])) (fun t => (region t, t.resp, t.paderr)) =
    some ([0x03#8, 0x03#8], some 0x1000#16, true) := by decide

/-! ## Codec, section 5 -/

theorem test_bclr : look (exec .bclr { filled 0 [0x41#8, 0xEA#8] with rp := 1 }) (fun t => (t.len, t.rp, t.buf)) =
    some (0, 0, []) := by decide
theorem test_bpush : look (exec (.bpush 0xEA#8) (filled 0 [0x41#8])) (fun t => (region t, t.resp)) =
    some ([0x41#8, 0xEA#8], some 0x0000#16) := by decide
theorem test_bpush_full : look (exec (.bpush 0x01#8) (filled 0 (List.replicate 8 0x01#8))) (fun t => (t.resp, t.ovf)) =
    some (some 0x2000#16, true) := by decide
theorem test_brew : look (exec .brew { filled 0 [0x41#8, 0xEA#8] with rp := 2 }) (fun t => (t.rp, t.len)) = some (0, 2) := by
  decide
theorem test_bread : look (exec .bread { filled 0 [0x41#8, 0xEA#8] with rp := 1 }) (fun t => (t.rp, t.resp)) =
    some (2, some 0x00EA#16) := by decide
theorem test_bread_empty : look (exec .bread { filled 0 [0x41#8, 0xEA#8] with rp := 2 }) (fun t => (t.rp, t.resp)) =
    some (2, some 0x4000#16) := by decide
theorem test_ldb_pk1 :
    look (exec .ldb (filled 0 [0x01#8, 0x02#8, 0x03#8, 0x04#8, 0x05#8, 0x06#8, 0x07#8, 0x08#8])) (fun t => (t.v, t.resp)) =
    some (⟨0x01020304#32, 0x05060708#32⟩, some 0x0008#16) := by decide
theorem test_ldb_pk5 : look (exec .ldb (filled 0 [0xDE#8, 0xAD#8, 0xBE#8, 0xEF#8, 0xCA#8])) (fun t => (t.v, t.resp)) =
    some (⟨0xDEADBEEF#32, 0xCA000000#32⟩, some 0x0005#16) := by decide
theorem test_stb_appends : look (exec .stb { State.reset with v := ⟨0x41EA3A0A#32, 0x94BAA940#32⟩ })
    (fun t => (region t, t.bidx)) =
    some ([0x41#8, 0xEA#8, 0x3A#8, 0x0A#8, 0x94#8, 0xBA#8, 0xA9#8, 0x40#8], 1) := by decide
theorem test_stb_seq_before_overflow : look (exec .stb { State.resetOf ⟨0⟩ with bidx := 1 })
    (fun t => (t.resp, t.seqerr, t.ovf)) = some (some 0x5000#16, true, false) := by decide

/-! ## Cipher, section 2 -/

theorem test_enc_starts : look (exec .enc (keyed zeroKey State.reset)) (fun t => (t.phase, t.rc, t.sum, t.resp)) =
    some (.enc, 0#6, 0#32, none) := by decide
theorem test_encrypt_round_t2 : (encryptRound { State.reset with
      k := ⟨0x00112233#32, 0x44556677#32, 0x8899AABB#32, 0xCCDDEEFF#32⟩, v := ⟨0x01234567#32, 0x89ABCDEF#32⟩ }).v =
    ⟨0xF6B2C7D4#32, 0x3D6BB13A#32⟩ := by decide
theorem test_last_round_t1 :
    (microStep (t1Run 31#6 0xFA8572E9#32 0x804528E6#32 0x28B7BD67#32)).v = ⟨0x41EA3A0A#32, 0x94BAA940#32⟩ ∧
    (microStep (t1Run 31#6 0xFA8572E9#32 0x804528E6#32 0x28B7BD67#32)).resp = some 0x0000#16 := by decide
theorem test_enc_t1 : look (perform .enc (keyed zeroKey State.reset)) (fun t => (t.v, t.sum, t.rc, t.phase)) =
    some (⟨0x41EA3A0A#32, 0x94BAA940#32⟩, 0xC6EF3720#32, 32#6, .idle) := by decide +kernel
theorem test_dec_of_zero : look (perform .dec (keyed zeroKey State.reset)) (fun t => (t.v, t.sum)) =
    some (⟨0x1423FF6D#32, 0x9216EF3A#32⟩, 0#32) := by decide +kernel
theorem test_decrypt_round_example : (decryptRound { State.reset with
      sum := 0x9E3779B9#32, v := ⟨0x9E3779B9#32, 0xDBE8D32F#32⟩ }).v = ⟨0#32, 0#32⟩ := by decide

/-! ## Host sequences, section 8: P2 and P3 -/

theorem test_p2 : look (encryptPath [0x68#8, 0x65#8, 0x6C#8, 0x6C#8, 0x6F#8] (keyed kd1 (State.resetOf ⟨0⟩))) readOut =
    some [0x3C#8, 0x36#8, 0x28#8, 0x99#8, 0x11#8, 0x11#8, 0x00#8, 0x6B#8] := by decide +kernel
theorem test_p3 : look (decryptPath [0x3C#8, 0x36#8, 0x28#8, 0x99#8, 0x11#8, 0x11#8, 0x00#8, 0x6B#8]
      (keyed kd1 (State.resetOf ⟨0⟩))) (fun t => (readOut t, t.resp)) =
    some ([0x68#8, 0x65#8, 0x6C#8, 0x6C#8, 0x6F#8], some 0x0003#16) := by decide +kernel

/-! ## Witnesses: states and operands that meet the hypotheses of a statement -/

theorem witness_StepRunsTheDecodedCommand :
    (withInbox [.command 0x2168#16] State.reset).phase = .idle ∧
    (withInbox [.command 0x2168#16] State.reset).inbox = .command 0x2168#16 :: [] ∧
    decode 0x2168#16 = .ok (.bpush 0x68#8) := by decide

theorem witness_StepRefusesIllegalWords :
    (withInbox [.command 0x12FF#16] State.reset).phase = .idle ∧
    (withInbox [.command 0x12FF#16] State.reset).inbox = .command 0x12FF#16 :: [] ∧
    decode 0x12FF#16 = .error (.operandNotZero 0x12#8) := by decide

/-- Both forms of what the host may hold, in both phases of a run. -/
theorem witness_StepHoldsCommandsDuringARun :
    (t1Run 0#6 0#32 0#32 0#32).phase ≠ .idle ∧ CommandsNext (t1Run 0#6 0#32 0#32 0#32).inbox ∧
    { t1Run 0#6 0#32 0#32 0#32 with phase := .dec }.phase ≠ .idle ∧
    CommandsNext (withInbox [.command 0x0000#16] (t1Run 0#6 0#32 0#32 0#32)).inbox :=
  ⟨by decide, .inl rfl, by decide, .inr ⟨0x0000#16, [], rfl⟩⟩

theorem witness_StepResetsInAnyPhase :
    (withInbox [.reset, .command 0x0100#16] (t1Run 7#6 1#32 2#32 3#32)).inbox = .reset :: [.command 0x0100#16] := rfl

theorem witness_IdleCoreKeepsItsState :
    State.reset.phase = .idle ∧ State.reset.inbox = [] ∧
    (withInbox [.quiet] State.reset).phase = .idle ∧ (withInbox [.quiet] State.reset).inbox = .quiet :: [] := by decide

/-- A step that ends a command, one that starts a run, and the one that ends it. -/
theorem witness_OneResponseWhenACommandEnds :
    (∃ t, step (withInbox [.command 0x0100#16] State.reset) = .next t) ∧
    (∃ t, step (withInbox [.command 0x4000#16] (keyed zeroKey State.reset)) = .next t) ∧
    (∃ t, step (t1Run 31#6 0#32 0#32 0#32) = .next t) := ⟨⟨_, rfl⟩, ⟨_, rfl⟩, ⟨_, rfl⟩⟩

theorem witness_KbyteAccumulates :
    State.reset.kacc = false ∧
    (deriving1 0#5 zeroKey).kacc = true ∧ (deriving1 0#5 zeroKey).kpos.toNat < 16 ∧
    (deriving1 15#5 zeroKey).kacc = true ∧ (deriving1 15#5 zeroKey).kpos.toNat < 16 ∧
    (deriving1 16#5 zeroKey).kacc = true ∧ ¬ (deriving1 16#5 zeroKey).kpos.toNat < 16 := by decide

theorem witness_KfinZeroFills :
    State.reset.kacc = false ∧
    (deriving1 0#5 zeroKey).kacc = true ∧ (deriving1 0#5 zeroKey).kpos.toNat ≤ 16 ∧
    (deriving1 16#5 zeroKey).kacc = true ∧ (deriving1 16#5 zeroKey).kpos.toNat ≤ 16 := by decide

theorem witness_KeyDerivationClosedForm : State.reset.phase = .idle := rfl

/-- Two strings that differ at position 16, and one that is short where the other has 0x00. -/
theorem witness_OnlySixteenBytesInfluenceTheKey :
    State.reset.phase = .idle ∧ (keyed kd1 State.reset).phase = .idle ∧
    (∀ p < 16, (List.replicate 16 0x61#8 ++ [0x01#8]).getD p 0x00#8 = (List.replicate 16 0x61#8 ++ [0x02#8]).getD p 0x00#8) ∧
    (∀ p < 16, [0x61#8, 0x00#8].getD p 0x00#8 = [0x61#8].getD p 0x00#8) := by decide

/-- The word in progress holds as many bytes as KPOS says. -/
theorem witness_StepKeepsKeyFilling :
    KeyFilling (withInbox [.command 0x11FF#16] (deriving1 3#5 ⟨0x00FFFFFF#32, 0#32, 0#32, 0#32⟩)) ∧
    ∃ t, step (withInbox [.command 0x11FF#16] (deriving1 3#5 ⟨0x00FFFFFF#32, 0#32, 0#32, 0#32⟩)) = .next t :=
  ⟨by decide, _, rfl⟩

/-- A round inside the run and the round that ends it. -/
theorem witness_EncryptRoundMicroStep :
    (t1Run 0#6 0#32 0#32 0#32).phase = .enc ∧ (t1Run 0#6 0#32 0#32 0#32).rc + 1 ≠ 32#6 ∧
    (t1Run 31#6 0#32 0#32 0#32).phase = .enc ∧ (t1Run 31#6 0#32 0#32 0#32).rc + 1 = 32#6 := by decide

theorem witness_DecryptRoundMicroStep :
    { t1Run 0#6 0#32 0#32 dsum0 with phase := .dec }.phase = .dec ∧
    { t1Run 0#6 0#32 0#32 dsum0 with phase := .dec }.rc + 1 ≠ 32#6 ∧
    { t1Run 31#6 0#32 0#32 delta with phase := .dec }.phase = .dec ∧
    { t1Run 31#6 0#32 0#32 delta with phase := .dec }.rc + 1 = 32#6 := by decide

theorem witness_EncStartsARun : State.reset.kvalid = false ∧ (keyed kd1 State.reset).kvalid = true := by decide
theorem witness_DecStartsARun : State.reset.kvalid = false ∧ (keyed kd1 State.reset).kvalid = true := by decide

theorem witness_EncCompletesInThirtyTwoMicroSteps :
    (withInbox [.command 0x4000#16, .command 0x0100#16] (keyed kd1 State.reset)).phase = .idle ∧
    (withInbox [.command 0x4000#16, .command 0x0100#16] (keyed kd1 State.reset)).kvalid = true ∧
    (withInbox [.command 0x4000#16, .command 0x0100#16] (keyed kd1 State.reset)).inbox =
      .command 0x4000#16 :: [.command 0x0100#16] ∧
    CommandsNext [.command 0x0100#16] ∧ CommandsNext [] :=
  ⟨rfl, rfl, rfl, .inr ⟨0x0100#16, [], rfl⟩, .inl rfl⟩

theorem witness_DecCompletesInThirtyTwoMicroSteps :
    (withInbox [.command 0x4100#16] (keyed kd1 State.reset)).phase = .idle ∧
    (withInbox [.command 0x4100#16] (keyed kd1 State.reset)).kvalid = true ∧
    (withInbox [.command 0x4100#16] (keyed kd1 State.reset)).inbox = .command 0x4100#16 :: [] ∧ CommandsNext [] :=
  ⟨rfl, rfl, rfl, .inl rfl⟩

/-- The first and the last round count, for ENC and for DEC. -/
theorem witness_SumSchedule :
    (keyed kd1 State.reset).phase = .idle ∧ (keyed kd1 State.reset).kvalid = true ∧ CommandsNext [] ∧ 0 ≤ 32 ∧ 32 ≤ 32 ∧
    (withInbox [.command 0x4000#16] (keyed kd1 State.reset)).inbox = .command 0x4000#16 :: [] ∧
    (withInbox [.command 0x4100#16] (keyed kd1 State.reset)).inbox = .command 0x4100#16 :: [] :=
  ⟨rfl, rfl, .inl rfl, by decide, by decide, rfl, rfl⟩

/-- A command of one step, and one of 33 steps. -/
theorem witness_StepsCarryOutACommand :
    (withInbox [.command (encode .stat)] State.reset).phase = .idle ∧
    (withInbox [.command (encode .stat)] State.reset).inbox = .command (encode .stat) :: [] ∧
    (withInbox [.command (encode .enc)] (keyed kd1 State.reset)).kvalid = true ∧
    (withInbox [.command (encode .enc)] (keyed kd1 State.reset)).inbox = .command (encode .enc) :: [] ∧ CommandsNext [] :=
  ⟨rfl, rfl, rfl, rfl, .inl rfl⟩

theorem witness_PadAppendsPadding :
    (filled 0 (List.replicate 8 0x01#8)).len = (filled 0 (List.replicate 8 0x01#8)).cfg.bufCap ∧
    (filled 0 []).len < (filled 0 []).cfg.bufCap ∧
    (filled 0 (List.replicate 7 0x01#8)).len < (filled 0 (List.replicate 7 0x01#8)).cfg.bufCap := by decide

/-- The shortest and the longest padding. -/
theorem witness_UnpadRemovesValidPadding :
    ValidPadding (filled 0 [0x41#8, 0x01#8]) 1 ∧ ValidPadding (filled 0 (List.replicate 8 0x08#8)) 8 := by
  refine ⟨⟨by decide, by decide, by decide, fun j h1 h2 => ?_⟩, ⟨by decide, by decide, by decide, fun j h1 h2 => ?_⟩⟩
  · obtain rfl : j = 1 := by omega
    decide
  · interval_cases j <;> decide

/-- An empty buffer, and buffers whose last byte is 0 or above 8. -/
theorem witness_UnpadRejectsInvalidPadding :
    (BufInv (filled 0 []) ∧ ∀ p, ¬ ValidPadding (filled 0 []) p) ∧
    (BufInv (filled 0 [0x41#8, 0x00#8]) ∧ ∀ p, ¬ ValidPadding (filled 0 [0x41#8, 0x00#8]) p) ∧
    (BufInv (filled 0 [0x41#8, 0x09#8]) ∧ ∀ p, ¬ ValidPadding (filled 0 [0x41#8, 0x09#8]) p) := by
  refine ⟨⟨by decide, fun p h => ?_⟩, ⟨by decide, fun p h => ?_⟩, ⟨by decide, fun p h => ?_⟩⟩
  · have h1 := h.1
    have h3 : p ≤ 0 := h.2.2.1
    omega
  · have h1 := h.1
    have h3 : p ≤ 2 := h.2.2.1
    have h4 := h.2.2.2 1 (by omega) h1
    interval_cases p <;> revert h4 <;> decide
  · have h1 := h.1
    have h3 : p ≤ 2 := h.2.2.1
    have h4 := h.2.2.2 1 (by omega) h1
    interval_cases p <;> revert h4 <;> decide

theorem witness_UnpadUndoesPad : Inv (filled 0 (List.replicate 7 0x41#8)) ∧
    (filled 0 (List.replicate 7 0x41#8)).len < (filled 0 (List.replicate 7 0x41#8)).cfg.bufCap := by decide

theorem witness_BpushAppendsAByte :
    (filled 0 (List.replicate 8 0x01#8)).len = (filled 0 (List.replicate 8 0x01#8)).cfg.bufCap ∧
    (filled 0 (List.replicate 7 0x01#8)).len < (filled 0 (List.replicate 7 0x01#8)).cfg.bufCap := by decide

theorem witness_BreadReadsTheNextByte :
    (filled 0 []).len ≤ (filled 0 []).rp ∧ BufInv (filled 0 [0x41#8]) ∧ (filled 0 [0x41#8]).rp < (filled 0 [0x41#8]).len := by
  decide

/-- A full chunk, a short one and one with no byte. -/
theorem witness_LdbPacksTheChunk :
    (∀ j < 8, if 8 * (filled 0 (List.replicate 8 0x41#8)).bidx + j < (filled 0 (List.replicate 8 0x41#8)).len
      then (filled 0 (List.replicate 8 0x41#8)).buf.get (8 * (filled 0 (List.replicate 8 0x41#8)).bidx + j) = some 0x41#8
      else (0x41#8 : Byte) = 0x00#8) ∧
    (∀ j < 8, if 8 * (filled 0 [0xAA#8]).bidx + j < (filled 0 [0xAA#8]).len
      then (filled 0 [0xAA#8]).buf.get (8 * (filled 0 [0xAA#8]).bidx + j) = some (if j = 0 then 0xAA#8 else 0x00#8)
      else (if j = 0 then 0xAA#8 else 0x00#8) = 0x00#8) ∧
    (∀ j < 8, if 8 * State.reset.bidx + j < State.reset.len
      then State.reset.buf.get (8 * State.reset.bidx + j) = some 0x00#8 else (0x00#8 : Byte) = 0x00#8) := by decide

/-- The three clauses, each where its guard is just met. -/
theorem witness_StbUnpacksTheBlock :
    { filled 1 (List.replicate 7 0x41#8) with bidx := 1 }.len < 8 * { filled 1 (List.replicate 7 0x41#8) with bidx := 1 }.bidx ∧
    8 * { filled 0 (List.replicate 8 0x41#8) with bidx := 1 }.bidx ≤ (filled 0 (List.replicate 8 0x41#8)).len ∧
    (filled 0 (List.replicate 8 0x41#8)).cfg.bufCap < 8 * { filled 0 (List.replicate 8 0x41#8) with bidx := 1 }.bidx + 8 ∧
    8 * { filled 1 (List.replicate 8 0x41#8) with bidx := 1 }.bidx ≤ (filled 1 (List.replicate 8 0x41#8)).len ∧
    8 * { filled 1 (List.replicate 8 0x41#8) with bidx := 1 }.bidx + 8 ≤ (filled 1 (List.replicate 8 0x41#8)).cfg.bufCap := by
  decide

/-- A full chunk and a short one. -/
theorem witness_LdbThenStb :
    Inv (filled 0 (List.replicate 8 0x41#8)) ∧
    8 * (filled 0 (List.replicate 8 0x41#8)).bidx < (filled 0 (List.replicate 8 0x41#8)).len ∧
    8 * (filled 0 (List.replicate 8 0x41#8)).bidx + 8 ≤ (filled 0 (List.replicate 8 0x41#8)).len ∧
    Inv (filled 0 [0x41#8]) ∧ 8 * (filled 0 [0x41#8]).bidx < (filled 0 [0x41#8]).len ∧
    (filled 0 [0x41#8]).len < 8 * (filled 0 [0x41#8]).bidx + 8 :=
  ⟨by decide, by decide, by decide, by decide, by decide, by decide⟩

theorem witness_StbThenLdbGivesTheBlockBack : State.reset.bidx = 0 := rfl

/-- A refusal, a result with a flag, and the answer EMPTY. -/
theorem witness_AFailedCommandChangesOnlyItsFlag :
    State.reset.resp = none ∧
    (∃ t, exec .enc State.reset = .next t ∧ t.resp = some 0x5000#16) ∧
    (∃ t, exec .unpad State.reset = .next t ∧ t.resp = some 0x1000#16) ∧
    (∃ t, exec .bread State.reset = .next t ∧ t.resp = some 0x4000#16) ∧
    (0x5000#16 : RespWord).extractLsb' 12 4 ≠ 0#4 ∧ (0x1000#16 : RespWord).extractLsb' 12 4 ≠ 0#4 ∧
    (0x4000#16 : RespWord).extractLsb' 12 4 ≠ 0#4 :=
  ⟨rfl, ⟨_, rfl, rfl⟩, ⟨_, rfl, rfl⟩, ⟨_, rfl, rfl⟩, by decide, by decide, by decide⟩

theorem witness_SeqIsRaisedExactlyHere :
    State.reset.resp = none ∧ (∃ t, exec .kfin State.reset = .next t ∧ t.resp = some 0x5000#16) ∧
    (∃ t, exec .dec State.reset = .next t ∧ t.resp = some 0x5000#16) ∧
    (∃ t, exec .stb { State.reset with bidx := 1 } = .next t ∧ t.resp = some 0x5000#16) :=
  ⟨rfl, ⟨_, rfl, rfl⟩, ⟨_, rfl, rfl⟩, ⟨_, rfl, rfl⟩⟩

theorem witness_OverflowIsRaisedExactlyHere :
    (filled 0 (List.replicate 8 0x01#8)).resp = none ∧
    (∃ t, exec .pad (filled 0 (List.replicate 8 0x01#8)) = .next t ∧ t.resp = some 0x2000#16) ∧
    (∃ t, exec .stb { filled 0 (List.replicate 8 0x01#8) with bidx := 1 } = .next t ∧ t.resp = some 0x2000#16) :=
  ⟨rfl, ⟨_, rfl, rfl⟩, ⟨_, rfl, rfl⟩⟩

theorem witness_ResponseWordForm :
    (filled 0 [0x41#8]).resp = none ∧ (∃ t, exec .bread (filled 0 [0x41#8]) = .next t ∧ t.resp = some 0x0041#16) ∧
    (∃ t, exec .unpad (filled 0 []) = .next t ∧ t.resp = some 0x1000#16) ∧
    (∃ t, exec .bread (filled 0 []) = .next t ∧ t.resp = some 0x4000#16) :=
  ⟨rfl, ⟨_, rfl, rfl⟩, ⟨_, rfl, rfl⟩, ⟨_, rfl, rfl⟩⟩

/-- All four flags set, and a command that is not CLRF. -/
theorem witness_StickyFlagsStaySet :
    let s := withInbox [.command 0x0100#16] { State.reset with paderr := true, ovf := true, ill := true, seqerr := true }
    (∃ t, step s = .next t) ∧ s.inbox.head? ≠ some .reset ∧
    ¬ (s.phase = .idle ∧ s.inbox.head? = some (.command 0x0200#16)) ∧
    s.paderr = true ∧ s.ovf = true ∧ s.ill = true ∧ s.seqerr = true :=
  ⟨⟨_, rfl⟩, by decide, by decide, rfl, rfl, rfl, rfl⟩

theorem witness_FlagsBlockNothing : ∃ t, exec .pad (filled 0 [0x41#8]) = .next t := ⟨_, rfl⟩

theorem witness_OnlyListedCommandsWriteARegister :
    ∃ t, exec .stb (filled 0 []) = .next t ∧ t.len ≠ (filled 0 []).len ∧ t.bidx ≠ (filled 0 []).bidx :=
  ⟨_, rfl, by decide, by decide⟩

theorem witness_NoCommandReadsTheKeyOut : ∃ t, exec .kfin (deriving1 3#5 zeroKey) = .next t := ⟨_, rfl⟩

theorem witness_StepKeepsMemoryCanonical :
    (withInbox [.command 0x2141#16] (filled 0 [0x41#8])).buf.wf = true ∧
    ∃ t, step (withInbox [.command 0x2141#16] (filled 0 [0x41#8])) = .next t := ⟨by decide, _, rfl⟩

/-- Idle, and in the last round of a run. -/
theorem witness_StepKeepsTheInvariant :
    Inv (withInbox [.command 0x3100#16] (filled 0 [0x41#8])) ∧
    (∃ t, step (withInbox [.command 0x3100#16] (filled 0 [0x41#8])) = .next t) ∧
    Inv (t1Run 31#6 0xFA8572E9#32 0x804528E6#32 0x28B7BD67#32) ∧
    ∃ t, step (t1Run 31#6 0xFA8572E9#32 0x804528E6#32 0x28B7BD67#32) = .next t :=
  ⟨by decide, ⟨_, rfl⟩, by decide, _, rfl⟩

theorem witness_TheMachineNeverStops : Inv State.reset := by decide

/-- The empty input and the longest one. -/
theorem witness_EncryptPathEncryptsEveryChunk :
    Inv (keyed kd1 (State.resetOf ⟨0⟩)) ∧ (keyed kd1 (State.resetOf ⟨0⟩)).phase = .idle ∧
    (keyed kd1 (State.resetOf ⟨0⟩)).kvalid = true ∧ ([] : List Byte).length < (keyed kd1 (State.resetOf ⟨0⟩)).cfg.bufCap ∧
    (List.replicate 7 0x41#8).length < (keyed kd1 (State.resetOf ⟨0⟩)).cfg.bufCap := by decide

/-- Section 8's P2 and section 9's first tampering: an input whose plaintext ends in a padding, and one whose does not. -/
theorem witness_DecryptPathDecryptsEveryChunk :
    Inv (keyed kd1 (State.resetOf ⟨0⟩)) ∧ (keyed kd1 (State.resetOf ⟨0⟩)).phase = .idle ∧
    (keyed kd1 (State.resetOf ⟨0⟩)).kvalid = true ∧ 8 * ((8 + 7) / 8) ≤ (keyed kd1 (State.resetOf ⟨0⟩)).cfg.bufCap ∧
    EndsInPadding (ecb (fun v => decryptBlock v kd1)
      (zeroFilled [0x3C#8, 0x36#8, 0x28#8, 0x99#8, 0x11#8, 0x11#8, 0x00#8, 0x6B#8])) 3 ∧
    ∀ p, ¬ EndsInPadding (ecb (fun v => decryptBlock v kd1)
      (zeroFilled [0x3C#8, 0x36#8, 0x28#8, 0x99#8, 0x11#8, 0x11#8, 0x00#8, 0x6A#8])) p := by
  have e1 : ecb (fun v => decryptBlock v kd1)
      (zeroFilled [0x3C#8, 0x36#8, 0x28#8, 0x99#8, 0x11#8, 0x11#8, 0x00#8, 0x6B#8]) =
      [0x68#8, 0x65#8, 0x6C#8, 0x6C#8, 0x6F#8, 0x03#8, 0x03#8, 0x03#8] := by decide +kernel
  have e2 : ecb (fun v => decryptBlock v kd1)
      (zeroFilled [0x3C#8, 0x36#8, 0x28#8, 0x99#8, 0x11#8, 0x11#8, 0x00#8, 0x6A#8]) =
      [0x57#8, 0x1D#8, 0x5E#8, 0x92#8, 0x1B#8, 0x89#8, 0x93#8, 0xEC#8] := by decide +kernel
  rw [e1, e2]
  refine ⟨by decide, rfl, rfl, by decide, ⟨by decide, by decide, by decide, by decide⟩, fun p h => ?_⟩
  have h1 := h.1
  have h2 := h.2.1
  have h4 := h.2.2.2
  interval_cases p <;> revert h4 <;> decide

/-- The other inputs of the same statement: the empty one, and section 8's P5, whose last chunk is short and whose plaintext
does not end in a padding. -/
theorem witness_DecryptPathDecryptsEveryChunk_empty_and_short :
    8 * ((([] : List Byte).length + 7) / 8) ≤ (keyed kd1 (State.resetOf ⟨0⟩)).cfg.bufCap ∧
    8 * (([0x3C#8, 0x36#8, 0x28#8, 0x99#8, 0x11#8].length + 7) / 8) ≤ (keyed kd1 (State.resetOf ⟨0⟩)).cfg.bufCap ∧
    ∀ p, ¬ EndsInPadding (ecb (fun v => decryptBlock v kd1)
      (zeroFilled [0x3C#8, 0x36#8, 0x28#8, 0x99#8, 0x11#8])) p := by
  have e : ecb (fun v => decryptBlock v kd1) (zeroFilled [0x3C#8, 0x36#8, 0x28#8, 0x99#8, 0x11#8]) =
      [0xC7#8, 0x74#8, 0x70#8, 0x1A#8, 0xB9#8, 0xB7#8, 0xB2#8, 0x6F#8] := by decide +kernel
  rw [e]
  refine ⟨by decide, by decide, fun p h => ?_⟩
  have h1 := h.1
  have h2 := h.2.1
  have h4 := h.2.2.2
  interval_cases p <;> revert h4 <;> decide

theorem witness_ReadOutIsTheValidRegion :
    Inv { filled 0 [0x41#8, 0xEA#8] with rp := 2 } ∧ { filled 0 [0x41#8, 0xEA#8] with rp := 2 }.phase = .idle := by decide

theorem witness_WholeBufferRoundTrip :
    Inv (keyed kd1 (State.resetOf ⟨0⟩)) ∧ (keyed kd1 (State.resetOf ⟨0⟩)).phase = .idle ∧
    (keyed kd1 (State.resetOf ⟨0⟩)).kvalid = true ∧ ([] : List Byte).length < (keyed kd1 (State.resetOf ⟨0⟩)).cfg.bufCap ∧
    (List.replicate 7 0x41#8).length < (keyed kd1 (State.resetOf ⟨0⟩)).cfg.bufCap := by decide

end Sys2Proof.Tests
end

section
/-! PROOFS. What a step answers for each thing at the command port, and that every access to BUF, every command and every
step completes in a state that meets the invariant (00_scope.md R15, 70_reset_and_hazards.md R207). -/

namespace Sys2Proof.Machine

open Sys2Proof

/-! ## The step for each thing at the command port -/

theorem step_of_reset {s : State} {rest : List HostEvent} (h : s.inbox = .reset :: rest) :
    step s = .next (applyReset rest s) := by
  simp [step, advance, h]

theorem step_of_quiet {s : State} {rest : List HostEvent} (h : s.inbox = .quiet :: rest) :
    step s = .next (microStep (consume rest s)) := by
  simp [step, advance, h]

theorem step_of_nil {s : State} (h : s.inbox = []) : step s = .next (microStep (consume [] s)) := by
  simp [step, advance, h]

theorem step_of_command_idle {s : State} {w : CmdWord} {rest : List HostEvent} (h : s.inbox = .command w :: rest)
    (hp : s.phase = .idle) : step s = acceptWord w (consume rest s) := by
  simp [step, advance, h, hp]

/-- 70_reset_and_hazards.md R204: the word is held. -/
theorem step_of_command_busy {s : State} {w : CmdWord} {rest : List HostEvent} (h : s.inbox = .command w :: rest)
    (hp : s.phase ≠ .idle) : step s = .next (microStep (consume s.inbox s)) := by
  simp [step, advance, h, hp]

/-! ## Accesses to BUF complete -/

/-- An access that completes, followed by something that completes. -/
theorem orFault_completes {α : Type} {r : Except Fault α} {f : α → Result} (hr : ∃ x, r = .ok x)
    (hf : ∀ x, ∃ t, f x = .next t) : ∃ t, orFault r f = .next t := by
  obtain ⟨x, rfl⟩ := hr
  exact hf x

theorem memRead_completes {s : State} {a : Nat} (h : BufInv s) (ha : a < s.len) : ∃ b, memRead s a = .ok b := by
  obtain ⟨b, hb⟩ := Memory.get_of_range_lt h ha
  exact ⟨b, (memRead_eq_ok_iff s a b).mpr hb⟩

theorem memWrite_completes {a : Nat} {s : State} (v : Byte) (ha : a < s.cfg.bufCap) : ∃ t, memWrite a v s = .ok t :=
  ⟨_, (memWrite_eq_ok_iff a v s _).mpr ⟨ha, rfl⟩⟩

/-- 20_memory.md R54: a chunk can be read at every index, the bytes outside the valid region being 0x00. -/
theorem blockRead_completes {s : State} (h : BufInv s) (i : Nat) : ∃ c, blockRead s i = .ok c := by
  refine ⟨_, blockRead_eq_ok s i (fun j => (s.buf.get (8 * i + j)).getD 0x00#8) fun j _ => ?_⟩
  split
  · next hlt =>
    obtain ⟨b, hb⟩ := Memory.get_of_range_lt h hlt
    simp [hb]
  · next hge => simp [Memory.get_of_range_ge h (by omega : s.len ≤ 8 * i + j)]

/-- Every byte of the tail lies below LEN, so it has a value. -/
theorem tailMatches_completes {s : State} (h : BufInv s) (hl : s.len ≠ 0) (p : Byte) (n : Nat) :
    ∃ ok, tailMatches s p (List.range' 1 n) = .ok ok := by
  refine ⟨_, tailMatches_eq_ok s p fun j hj => (Memory.isSome_get_of_range h _).mpr ?_⟩
  have hj1 : 1 ≤ j := (List.mem_range'_1.mp hj).1
  omega

/-- 43_padding.md R130: BUF_CAP is a multiple of 8, so the padding of a buffer that is not full fits. -/
theorem len_add_padValue_le_bufCap {len : Nat} {c : Config} (h : len < c.bufCap) : len + padValue len ≤ c.bufCap := by
  unfold padValue Config.bufCap at *
  omega

/-! ## Commands complete -/

theorem execKbyte_completes (b : Byte) (s : State) : ∃ t, execKbyte b s = .next t := by
  unfold execKbyte
  split_ifs
  all_goals exact ⟨_, rfl⟩

theorem execKfin_completes (s : State) : ∃ t, execKfin s = .next t := by
  unfold execKfin
  split_ifs
  all_goals exact ⟨_, rfl⟩

theorem execEnc_completes (s : State) : ∃ t, execEnc s = .next t := by
  unfold execEnc
  split_ifs
  all_goals exact ⟨_, rfl⟩

theorem execDec_completes (s : State) : ∃ t, execDec s = .next t := by
  unfold execDec
  split_ifs
  all_goals exact ⟨_, rfl⟩

theorem execBpush_completes {s : State} (hc : s.len ≤ s.cfg.bufCap) (b : Byte) : ∃ t, execBpush b s = .next t := by
  unfold execBpush
  split
  · exact ⟨_, rfl⟩
  · next hne => exact orFault_completes (memWrite_completes b (lt_of_le_of_ne hc hne)) fun _ => ⟨_, rfl⟩

theorem execBread_completes {s : State} (hb : BufInv s) : ∃ t, execBread s = .next t := by
  unfold execBread
  split
  · exact ⟨_, rfl⟩
  · next hlt => exact orFault_completes (memRead_completes hb (not_le.mp hlt)) fun _ => ⟨_, rfl⟩

theorem execPad_completes {s : State} (hc : s.len ≤ s.cfg.bufCap) : ∃ t, execPad s = .next t := by
  unfold execPad
  split
  · exact ⟨_, rfl⟩
  · next hne =>
    have hfits := len_add_padValue_le_bufCap (lt_of_le_of_ne hc hne)
    refine orFault_completes (writeBytes_completes ?_) fun _ => ⟨_, rfl⟩
    rwa [List.length_replicate]

theorem execUnpad_completes {s : State} (hb : BufInv s) : ∃ t, execUnpad s = .next t := by
  unfold execUnpad
  split
  · exact ⟨_, rfl⟩
  · next hl =>
    have hlast : tailAddr s 1 < s.len := Nat.sub_lt (Nat.pos_of_ne_zero hl) Nat.one_pos
    refine orFault_completes (memRead_completes hb hlast) fun p => ?_
    split_ifs with hzero hbig hlong
    · exact ⟨_, rfl⟩
    · exact ⟨_, rfl⟩
    · exact ⟨_, rfl⟩
    · refine orFault_completes (tailMatches_completes hb hl p p.toNat) fun ok => ?_
      cases ok with
      | true => exact ⟨_, rfl⟩
      | false => exact ⟨_, rfl⟩

theorem execLdb_completes {s : State} (hb : BufInv s) : ∃ t, execLdb s = .next t :=
  orFault_completes (blockRead_completes hb s.bidx) fun _ => ⟨_, rfl⟩

/-- STB's own guard keeps its addresses below BUF_CAP, so it completes in every state. -/
theorem execStb_completes (s : State) : ∃ t, execStb s = .next t := by
  unfold execStb
  split_ifs with hseq hovf
  · exact ⟨_, rfl⟩
  · exact ⟨_, rfl⟩
  · exact orFault_completes (writeBytes_completes (not_lt.mp hovf)) fun _ => ⟨_, rfl⟩

/-- The part of the invariant that keeps every address in range is enough for every command (log 6). -/
theorem exec_completes {s : State} (hb : BufInv s) (hc : s.len ≤ s.cfg.bufCap) (i : Instr) : ∃ t, exec i s = .next t := by
  cases i with
  | stat | clrf | kinit | bclr | brew => exact ⟨_, rfl⟩
  | kbyte b => exact execKbyte_completes b s
  | kfin => exact execKfin_completes s
  | bpush b => exact execBpush_completes hc b
  | bread => exact execBread_completes hb
  | pad => exact execPad_completes hc
  | unpad => exact execUnpad_completes hb
  | ldb => exact execLdb_completes hb
  | stb => exact execStb_completes s
  | enc => exact execEnc_completes s
  | dec => exact execDec_completes s

/-- A word at the port completes whether it is a command or illegal (30_encoding.md R80, R75). -/
theorem acceptWord_completes {s : State} (hb : BufInv s) (hc : s.len ≤ s.cfg.bufCap) (w : CmdWord) :
    ∃ t, acceptWord w s = .next t := by
  unfold acceptWord
  cases decode w with
  | ok i => exact exec_completes hb hc i
  | error _ => exact ⟨_, rfl⟩

/-! ## Every step completes -/

theorem step_completes {s : State} (hb : BufInv s) (hc : s.len ≤ s.cfg.bufCap) : ∃ t, step s = .next t := by
  cases hi : s.inbox with
  | nil => exact ⟨_, step_of_nil hi⟩
  | cons event rest =>
    cases event with
    | reset => exact ⟨_, step_of_reset hi⟩
    | quiet => exact ⟨_, step_of_quiet hi⟩
    | command w =>
      by_cases hp : s.phase = .idle
      · rw [step_of_command_idle hi hp]
        exact acceptWord_completes (s := consume rest s) hb hc w
      · exact ⟨_, step_of_command_busy hi hp⟩

/-- Settles O56: BUF holds a value at every address below LEN, and LEN is at most BUF_CAP, so no access of any command is
out of range. -/
theorem theMachineNeverStops : Obligations.TheMachineNeverStops := by
  rintro s ⟨hbuf, ⟨hlen, -, -⟩, -, -⟩
  exact step_completes hbuf hlen

end Sys2Proof.Machine
end

section
/-! PROOFS. The invariant of 10_state.md R38: it holds after reset, and every operation on the state, every command of an
idle core, every micro-step and so every step keeps it. -/

namespace Sys2Proof.Machine

open Sys2Proof

/-! ## After reset -/

theorem inv_resetOf (c : Config) : Inv (State.resetOf c) := by
  have hkpos : (0#5 : BitVec 5) ≤ 16#5 := by decide
  exact ⟨rfl, ⟨Nat.zero_le _, Nat.zero_le _, Nat.zero_le _⟩, ⟨hkpos, nofun, nofun⟩,
    fun _ => ⟨.inl rfl, .inl rfl⟩, nofun, nofun⟩

theorem inv_applyReset (rest : List HostEvent) (s : State) : Inv (applyReset rest s) := inv_resetOf s.cfg

/-- Settles O11: the Reset column of R20 is the definition of `State.resetOf`, and STATUS packs eight zero bits. -/
theorem resetValues : Obligations.ResetValues := by
  intro c
  have hbuf : ∀ a, (State.resetOf c).buf.get a = none := Memory.get_nil
  have hstatus : status (State.resetOf c) = 0x00#8 := by simp [status, more, nempty, State.resetOf]
  exact ⟨rfl, rfl, rfl, rfl, rfl, rfl, rfl, rfl, rfl, rfl, rfl, rfl, rfl, rfl, rfl, hbuf, rfl, hstatus⟩

/-- Settles O54: the buffer is empty and every register of R38 is 0. -/
theorem invariantHoldsAtReset : Obligations.InvariantHoldsAtReset := ⟨inv_resetOf, inv_resetOf ⟨7⟩⟩

/-! ## The addresses with a value -/

/-- Writing inside the valid region or at its end: the addresses with a value stay exactly those below a bound. -/
theorem Memory.keys_set {m : Memory} {n a : Nat} (v : Byte) (h : m.map Prod.fst = List.range n) (ha : a ≤ n) :
    (m.set a v).map Prod.fst = List.range (max n (a + 1)) := by
  refine Memory.keys_eq_range (Memory.set_wf m a v (Memory.wf_of_range h)) fun x => ?_
  have hx := Memory.isSome_get_of_range h x
  rw [Memory.get_set]
  split
  · next heq => simp [heq]
  · next hne => rw [hx]; omega

theorem Memory.keys_below {m : Memory} {n l : Nat} (h : m.map Prod.fst = List.range l) (hn : n ≤ l) :
    (m.below n).map Prod.fst = List.range n := by
  refine Memory.keys_eq_range (Memory.below_wf m n (Memory.wf_of_range h)) fun x => ?_
  have hx := Memory.isSome_get_of_range h x
  rw [Memory.get_below]
  split
  · next hlt => rw [hx]; omega
  · next hge => simp [hge]

theorem writeBytes_keys {bs : List Byte} {a n : Nat} {s t : State} (h : writeBytes a bs s = .ok t)
    (hs : s.buf.map Prod.fst = List.range n) (ha : a ≤ n) :
    t.buf.map Prod.fst = List.range (max n (a + bs.length)) := by
  obtain ⟨-, hget, hwf⟩ := writeBytes_spec h
  refine Memory.keys_eq_range (hwf (Memory.wf_of_range hs)) fun x => ?_
  have hx := Memory.isSome_get_of_range hs x
  rw [hget]
  split
  · next hin =>
    have hlt : x - a < bs.length := by omega
    simp only [List.getElem?_eq_getElem hlt, Option.isSome_some, true_iff]
    omega
  · next hout => rw [hx]; omega

/-! ## Operations that touch no register of the invariant -/

theorem inv_respond {s : State} (c : Code) (d : Byte) (h : Inv s) : Inv (respond c d s) := h

theorem inv_raise {s : State} (c : Code) (h : Inv s) : Inv (raise c s) := by
  cases c with
  | ok | padfail | overflow | illegal | empty | seq => exact h

theorem inv_consume {s : State} (rest : List HostEvent) (h : Inv s) : Inv (consume rest s) := h

/-! ## The key deriver keeps it -/

/-- R38(c) of an idle state speaks of RC and SUM only. -/
theorem runInv_of_idle {s t : State} (h : RunInv s) (hs : s.phase = .idle) (ht : t.phase = .idle) (hrc : t.rc = s.rc)
    (hsum : t.sum = s.sum) : RunInv t := by
  obtain ⟨hidle, -, -⟩ := h
  refine ⟨fun _ => ?_, fun he => ?_, fun hd => ?_⟩
  · rw [hrc, hsum]
    exact hidle hs
  · simp [ht] at he
  · simp [ht] at hd

theorem execKinit_inv {s t : State} (hs : Inv s) (hp : s.phase = .idle) (h : execKinit s = .next t) : Inv t := by
  obtain ⟨hbuf, hrange, -, hrun⟩ := hs
  cases h
  have hkpos : (0#5 : BitVec 5) ≤ 16#5 := by decide
  exact ⟨hbuf, hrange, ⟨hkpos, fun _ => rfl, nofun⟩, runInv_of_idle hrun hp hp rfl rfl⟩

theorem execKbyte_inv {b : Byte} {s t : State} (hs : Inv s) (h : execKbyte b s = .next t) : Inv t := by
  rcases execKbyte_cases h with ⟨-, rfl⟩ | ⟨hacc, hlt, rfl⟩ | ⟨-, -, rfl⟩
  · exact inv_raise .seq hs
  · obtain ⟨hbuf, hrange, ⟨-, hexcl, -⟩, hrun⟩ := hs
    have hkv : s.kvalid = false := hexcl hacc
    have hle : s.kpos + 1 ≤ 16#5 := by bv_omega
    exact ⟨hbuf, hrange, ⟨hle, hexcl, fun hv => by simp [hkv] at hv⟩, hrun⟩
  · exact inv_respond .ok 0x00#8 hs

/-- 41_key_deriver.md R103: the loop ends with the cursor past the last byte. -/
theorem zeroFill_kpos {n : Nat} {s : State} (hle : s.kpos ≤ 16#5) (hn : 16 ≤ s.kpos.toNat + n) :
    (zeroFill n s).kpos = 16#5 := by
  induction n generalizing s with
  | zero =>
    unfold zeroFill
    bv_omega
  | succ n ih =>
    unfold zeroFill
    split
    · next hlt => exact ih (by rw [accumulate_kpos]; bv_omega) (by rw [accumulate_kpos]; bv_omega)
    · next hge => bv_omega

theorem execKfin_inv {s t : State} (hs : Inv s) (hp : s.phase = .idle) (h : execKfin s = .next t) : Inv t := by
  rcases execKfin_cases h with ⟨-, rfl⟩ | ⟨-, rfl⟩
  · exact inv_raise .seq hs
  · obtain ⟨hbuf, hrange, ⟨hle, -, -⟩, hrun⟩ := hs
    have hpos : (zeroFill 16 s).kpos = 16#5 := zeroFill_kpos hle (by omega)
    rw [zeroFill_frame]
    exact ⟨hbuf, hrange, ⟨BitVec.le_of_eq hpos, nofun, fun _ => hpos⟩, runInv_of_idle hrun hp hp rfl rfl⟩

/-! ## The buffer commands keep it -/

theorem inv_shrinkTo {n : Nat} {s : State} (h : Inv s) (hn : n ≤ s.len) : Inv (shrinkTo n s) := by
  obtain ⟨hbuf, ⟨hlen, hrp, hbidx⟩, hkey, hrun⟩ := h
  exact ⟨Memory.keys_below hbuf hn, ⟨hn.trans hlen, hrp, hbidx⟩, hkey, hrun⟩

/-- R38(a): both cursors at 0 are in range. -/
theorem inv_rewind {s : State} (h : Inv s) : Inv { s with rp := 0, bidx := 0 } := by
  obtain ⟨hbuf, ⟨hlen, -, -⟩, hkey, hrun⟩ := h
  exact ⟨hbuf, ⟨hlen, Nat.zero_le _, Nat.zero_le _⟩, hkey, hrun⟩

theorem execBclr_inv {s t : State} (hs : Inv s) (h : execBclr s = .next t) : Inv t := by
  cases h
  exact inv_respond .ok 0x00#8 (inv_rewind (inv_shrinkTo hs (Nat.zero_le s.len)))

theorem execBrew_inv {s t : State} (hs : Inv s) (h : execBrew s = .next t) : Inv t := by
  cases h
  exact inv_respond .ok 0x00#8 (inv_rewind hs)

theorem execBpush_inv {b : Byte} {s t : State} (hs : Inv s) (h : execBpush b s = .next t) : Inv t := by
  rcases execBpush_cases h with ⟨-, rfl⟩ | ⟨hlt, rfl⟩
  · exact inv_raise .overflow hs
  · obtain ⟨hbuf, ⟨-, hrp, hbidx⟩, hkey, hrun⟩ := hs
    have hkeys := Memory.keys_set b hbuf le_rfl
    rw [max_eq_right (Nat.le_succ s.len)] at hkeys
    exact ⟨hkeys, ⟨hlt, hrp, hbidx⟩, hkey, hrun⟩

theorem execBread_inv {s t : State} (hs : Inv s) (h : execBread s = .next t) : Inv t := by
  rcases execBread_cases h with ⟨-, rfl⟩ | ⟨hlt, b, -, rfl⟩
  · exact inv_respond .empty 0x00#8 hs
  · obtain ⟨hbuf, ⟨hlen, -, hbidx⟩, hkey, hrun⟩ := hs
    exact ⟨hbuf, ⟨hlen, hlt.trans_le hlen, hbidx⟩, hkey, hrun⟩

theorem execPad_inv {s t : State} (hs : Inv s) (h : execPad s = .next t) : Inv t := by
  rcases execPad_cases h with ⟨-, rfl⟩ | ⟨hne, u, hu, rfl⟩
  · exact inv_raise .overflow hs
  · obtain ⟨hbuf, ⟨hlen, hrp, hbidx⟩, hkey, hrun⟩ := hs
    have hkeys := writeBytes_keys hu hbuf le_rfl
    rw [List.length_replicate, max_eq_right (Nat.le_add_right _ _)] at hkeys
    obtain ⟨hframe, -, -⟩ := writeBytes_spec hu
    rw [hframe]
    exact ⟨hkeys, ⟨len_add_padValue_le_bufCap (lt_of_le_of_ne hlen hne), hrp, hbidx⟩, hkey, hrun⟩

theorem execUnpad_inv {s t : State} (hs : Inv s) (h : execUnpad s = .next t) : Inv t := by
  rcases execUnpad_cases h with rfl | ⟨-, p, -, -, -, -, -, rfl⟩
  · exact inv_raise .padfail hs
  · exact inv_respond .ok p (inv_shrinkTo hs (Nat.sub_le s.len p.toNat))

theorem execLdb_inv {s t : State} (hs : Inv s) (h : execLdb s = .next t) : Inv t := by
  obtain ⟨c, -, rfl⟩ := execLdb_cases h
  exact hs

/-- 44_codec.md R145: the guards keep the chunk inside BUF and next to the valid region, so no address is skipped. -/
theorem execStb_inv {s t : State} (hs : Inv s) (h : execStb s = .next t) : Inv t := by
  rcases execStb_cases h with ⟨-, rfl⟩ | ⟨-, -, rfl⟩ | ⟨hle, hfits, u, hu, rfl⟩
  · exact inv_raise .seq hs
  · exact inv_raise .overflow hs
  · obtain ⟨hbuf, ⟨hlen, hrp, -⟩, hkey, hrun⟩ := hs
    have hkeys := writeBytes_keys hu hbuf hle
    have hbidx : s.bidx + 1 ≤ s.cfg.bufCap / 8 := by omega
    obtain ⟨hframe, -, -⟩ := writeBytes_spec hu
    rw [hframe]
    exact ⟨hkeys, ⟨max_le hlen hfits, hrp, hbidx⟩, hkey, hrun⟩

/-! ## ENC, DEC and the run keep it -/

theorem execEnc_inv {s t : State} (hs : Inv s) (h : execEnc s = .next t) : Inv t := by
  rcases execEnc_cases h with ⟨-, rfl⟩ | ⟨hkv, rfl⟩
  · exact inv_raise .seq hs
  · obtain ⟨hbuf, hrange, hkey, -⟩ := hs
    have hrc : (0#6 : BitVec 6) < 32#6 := by decide
    have hsum : 0#32 = BitVec.ofNat 32 0 * delta := by decide
    exact ⟨hbuf, hrange, hkey, nofun, fun _ => ⟨hrc, hkv, hsum⟩, nofun⟩

theorem execDec_inv {s t : State} (hs : Inv s) (h : execDec s = .next t) : Inv t := by
  rcases execDec_cases h with ⟨-, rfl⟩ | ⟨hkv, rfl⟩
  · exact inv_raise .seq hs
  · obtain ⟨hbuf, hrange, hkey, -⟩ := hs
    have hrc : (0#6 : BitVec 6) < 32#6 := by decide
    have hsum : dsum0 = BitVec.ofNat 32 32 * delta := by decide
    exact ⟨hbuf, hrange, hkey, nofun, nofun, fun _ => ⟨hrc, hkv, hsum⟩⟩

/-- One round up the sum schedule of 42_cipher.md R120. -/
theorem schedule_add_delta (n : Nat) : add32 (BitVec.ofNat 32 n * delta) delta = BitVec.ofNat 32 (n + 1) * delta := by
  rw [add32, BitVec.ofNat_add, BitVec.add_mul, BitVec.one_mul]

/-- One round down the sum schedule of 42_cipher.md R120. -/
theorem schedule_sub_delta (n : Nat) : sub32 (BitVec.ofNat 32 (n + 1) * delta) delta = BitVec.ofNat 32 n * delta := by
  rw [← schedule_add_delta, sub32, add32, BitVec.add_sub_cancel]

theorem rc_add_one_toNat {n : BitVec 6} (h : n < 32#6) : (n + 1).toNat = n.toNat + 1 := by bv_omega

theorem rc_lt_iff_ne {n : BitVec 6} (h : n < 32#6) : n + 1 ≠ 32#6 ↔ n + 1 < 32#6 := by bv_omega

theorem encryptRound_inv {s : State} (hs : Inv s) (hp : s.phase = .enc) : Inv (endRun (encryptRound s)) := by
  obtain ⟨hbuf, hrange, hkey, -, henc, -⟩ := hs
  obtain ⟨hrc, hkv, hsum⟩ := henc hp
  have hsum' : (encryptRound s).sum = BitVec.ofNat 32 (s.rc + 1).toNat * delta := by
    rw [encryptRound_sum, hsum, schedule_add_delta, rc_add_one_toNat hrc]
  rcases endRun_cases (encryptRound s) with ⟨hend, heq⟩ | ⟨hmid, heq⟩
  · rw [encryptRound_rc] at hend
    rw [hend] at hsum'
    rw [heq]
    exact ⟨hbuf, hrange, hkey, fun _ => ⟨.inr hend, .inr (hsum'.trans (by decide))⟩, by simp, by simp⟩
  · rw [heq]
    exact ⟨hbuf, hrange, hkey, by simp [hp], fun _ => ⟨(rc_lt_iff_ne hrc).mp hmid, hkv, hsum'⟩, by simp [hp]⟩

theorem decryptRound_inv {s : State} (hs : Inv s) (hp : s.phase = .dec) : Inv (endRun (decryptRound s)) := by
  obtain ⟨hbuf, hrange, hkey, -, -, hdec⟩ := hs
  obtain ⟨hrc, hkv, hsum⟩ := hdec hp
  have hleft : 32 - s.rc.toNat = 32 - (s.rc + 1).toNat + 1 := by
    have hlt : s.rc.toNat < 32 := hrc
    rw [rc_add_one_toNat hrc]
    omega
  have hsum' : (decryptRound s).sum = BitVec.ofNat 32 (32 - (s.rc + 1).toNat) * delta := by
    rw [decryptRound_sum, hsum, hleft, schedule_sub_delta]
  rcases endRun_cases (decryptRound s) with ⟨hend, heq⟩ | ⟨hmid, heq⟩
  · rw [decryptRound_rc] at hend
    rw [hend] at hsum'
    rw [heq]
    exact ⟨hbuf, hrange, hkey, fun _ => ⟨.inr hend, .inl (hsum'.trans (by decide))⟩, by simp, by simp⟩
  · rw [heq]
    exact ⟨hbuf, hrange, hkey, by simp [hp], by simp [hp], fun _ => ⟨(rc_lt_iff_ne hrc).mp hmid, hkv, hsum'⟩⟩

theorem microStep_inv {s : State} (hs : Inv s) : Inv (microStep s) := by
  rcases microStep_cases s with ⟨-, heq⟩ | ⟨hp, heq⟩ | ⟨hp, heq⟩
  · rwa [heq]
  · rw [heq]
    exact encryptRound_inv hs hp
  · rw [heq]
    exact decryptRound_inv hs hp

/-! ## Every command of an idle core, and every step -/

theorem exec_inv {i : Instr} {s t : State} (hs : Inv s) (hp : s.phase = .idle) (h : exec i s = .next t) : Inv t := by
  cases i with
  | stat | clrf => cases h; exact hs
  | kinit => exact execKinit_inv hs hp h
  | kbyte b => exact execKbyte_inv hs h
  | kfin => exact execKfin_inv hs hp h
  | bclr => exact execBclr_inv hs h
  | bpush b => exact execBpush_inv hs h
  | brew => exact execBrew_inv hs h
  | bread => exact execBread_inv hs h
  | pad => exact execPad_inv hs h
  | unpad => exact execUnpad_inv hs h
  | ldb => exact execLdb_inv hs h
  | stb => exact execStb_inv hs h
  | enc => exact execEnc_inv hs h
  | dec => exact execDec_inv hs h

/-- Settles O55, by the cases of a step: a reset starts from R38 again; a command runs in an idle core and keeps it; an
illegal word sets a flag only; a micro-step moves along the sum schedule. -/
theorem stepKeepsTheInvariant : Obligations.StepKeepsTheInvariant := by
  intro s t hs h
  rcases step_cases h with ⟨rest, -, rfl⟩ | ⟨w, rest, i, hp, -, -, hexec⟩ | ⟨w, rest, e, -, -, -, rfl⟩ | ⟨rest, rfl, -⟩
  · exact inv_applyReset rest s
  · exact exec_inv (inv_consume rest hs) hp hexec
  · exact inv_raise .illegal (inv_consume rest hs)
  · exact microStep_inv (inv_consume rest hs)

end Sys2Proof.Machine
end

section
/-! PROOFS. What a command may write: the column Written by of 10_state.md R20, and the sticky flags, which only CLRF and a
reset clear (10_state.md R31, 60_exceptions.md R191). -/

namespace Sys2Proof.Machine

open Sys2Proof

/-! ## The column Written by -/

/-- Settles O50: in each case of `exec_cases` the laws of the update say which registers differ, and the row of R20 for
each of them lists the command. -/
theorem onlyListedCommandsWriteARegister : Obligations.OnlyListedCommandsWriteARegister := by
  intro i s t h
  rcases exec_cases h with ⟨rfl, rfl⟩ | ⟨rfl, rfl⟩ | ⟨rfl, rfl⟩ | ⟨⟨b, rfl⟩ | rfl, -, rfl⟩ | ⟨b, rfl, -, -, rfl⟩ |
    ⟨b, rfl, -, -, rfl⟩ | ⟨rfl, -, rfl⟩ | ⟨rfl, rfl⟩ | ⟨⟨b, rfl⟩ | rfl, -, rfl⟩ | ⟨b, rfl, -, rfl⟩ | ⟨rfl, rfl⟩ |
    ⟨rfl, -, rfl⟩ | ⟨rfl, -, b, rfl⟩ | ⟨rfl, -, u, -, rfl⟩ | ⟨rfl, rfl⟩ | ⟨rfl, -, p, -, -, rfl⟩ | ⟨rfl, c, rfl⟩ |
    ⟨rfl, -, rfl⟩ | ⟨rfl, -, -, rfl⟩ | ⟨rfl, -, -, u, -, rfl⟩ | ⟨rfl | rfl, -, rfl⟩ | ⟨rfl, -, rfl⟩ | ⟨rfl, -, rfl⟩
  all_goals simp

/-! ## The sticky flags -/

/-- Each sticky flag that is 1 in the first state is 1 in the second. -/
def FlagsStay (s t : State) : Prop :=
  (s.paderr = true → t.paderr = true) ∧ (s.ovf = true → t.ovf = true) ∧
  (s.ill = true → t.ill = true) ∧ (s.seqerr = true → t.seqerr = true)

theorem FlagsStay.of_eq {s t : State} (hpaderr : t.paderr = s.paderr) (hovf : t.ovf = s.ovf) (hill : t.ill = s.ill)
    (hseqerr : t.seqerr = s.seqerr) : FlagsStay s t :=
  ⟨hpaderr.trans, hovf.trans, hill.trans, hseqerr.trans⟩

/-- An error sets its own flag and leaves the others. -/
theorem flagsStay_raise (c : Code) (s : State) : FlagsStay s (raise c s) := by
  simp only [FlagsStay, raise_paderr, raise_ovf, raise_ill, raise_seqerr, Bool.or_eq_true]
  exact ⟨.inl, .inl, .inl, .inl⟩

theorem exec_flagsStay {i : Instr} {s t : State} (h : exec i s = .next t) (hi : i ≠ .clrf) : FlagsStay s t := by
  rcases exec_cases h with ⟨-, rfl⟩ | ⟨rfl, -⟩ | ⟨-, rfl⟩ | ⟨-, -, rfl⟩ | ⟨b, -, -, -, rfl⟩ | ⟨b, -, -, -, rfl⟩ |
    ⟨-, -, rfl⟩ | ⟨-, rfl⟩ | ⟨-, -, rfl⟩ | ⟨b, -, -, rfl⟩ | ⟨-, rfl⟩ | ⟨-, -, rfl⟩ | ⟨-, -, b, rfl⟩ |
    ⟨-, -, u, -, rfl⟩ | ⟨-, rfl⟩ | ⟨-, -, p, -, -, rfl⟩ | ⟨-, c, rfl⟩ | ⟨-, -, rfl⟩ | ⟨-, -, -, rfl⟩ |
    ⟨-, -, -, u, -, rfl⟩ | ⟨-, -, rfl⟩ | ⟨-, -, rfl⟩ | ⟨-, -, rfl⟩
  case inr.inl => exact absurd rfl hi
  all_goals simp [FlagsStay]

theorem endRun_flagsStay (s : State) : FlagsStay s (endRun s) := by
  rcases endRun_cases s with ⟨-, heq⟩ | ⟨-, heq⟩
  · rw [heq]
    exact .of_eq rfl rfl rfl rfl
  · rw [heq]
    exact .of_eq rfl rfl rfl rfl

/-- 60_exceptions.md R195: a micro-step touches no flag. -/
theorem microStep_flagsStay (s : State) : FlagsStay s (microStep s) := by
  rcases microStep_cases s with ⟨-, heq⟩ | ⟨-, heq⟩ | ⟨-, heq⟩
  · rw [heq]
    exact .of_eq rfl rfl rfl rfl
  · rw [heq]
    exact endRun_flagsStay (encryptRound s)
  · rw [heq]
    exact endRun_flagsStay (decryptRound s)

theorem decodeN_eq_ok_iff (i j : Instr) (w : CmdWord) : decodeN i w = .ok j ↔ immField w = 0x00#8 ∧ i = j := by
  unfold decodeN
  split
  · next h => simp [h]
  · next h => simp [h]

/-- 30_encoding.md R74: CLRF has one word. -/
theorem word_of_decode_clrf {w : CmdWord} (h : decode w = .ok .clrf) : w = 0x0200#16 := by
  rw [← opField_append_immField w]
  unfold decode at h
  split at h
  case h_2 hop =>
    obtain ⟨himm, -⟩ := (decodeN_eq_ok_iff _ _ _).mp h
    rw [hop, himm]
    rfl
  all_goals simp [decodeN_eq_ok_iff] at h

/-- Settles O48: the step is no reset, so it is a command other than CLRF, an illegal word, or a micro-step. -/
theorem stickyFlagsStaySet : Obligations.StickyFlagsStaySet := by
  intro s t h hreset hclrf
  rcases step_cases h with ⟨rest, hi, -⟩ | ⟨w, rest, i, hp, hi, hd, hexec⟩ | ⟨w, rest, e, -, -, -, rfl⟩ | ⟨rest, rfl, -⟩
  · simp [hi] at hreset
  · refine exec_flagsStay (s := consume rest s) hexec ?_
    rintro rfl
    rw [hi, word_of_decode_clrf hd] at hclrf
    exact hclrf ⟨hp, rfl⟩
  · exact flagsStay_raise .illegal (consume rest s)
  · exact microStep_flagsStay (consume rest s)

end Sys2Proof.Machine
end

section
/-! PROOFS. Two runs of one command from states that differ only in K and the sticky flags: no guard and no access to BUF
reads either of them (10_state.md R21, 60_exceptions.md R191). The relation between the two states is kept by every update
of a command, and so by the command, part by part of its meaning. -/

namespace Sys2Proof.Machine

open Sys2Proof

/-! ## States that differ only in K and the sticky flags -/

/-- The second state is the first but for K and the sticky flags; K agrees too under `sameKey`, the flags under
`sameFlags`. -/
def Alike (sameKey sameFlags : Prop) (s s' : State) : Prop :=
  ∃ k a b c d, s' = { s with k := k, paderr := a, ovf := b, ill := c, seqerr := d } ∧ (sameKey → k = s.k) ∧
    (sameFlags → a = s.paderr ∧ b = s.ovf ∧ c = s.ill ∧ d = s.seqerr)

/-- If the first run answers a state, the second answers one alike. -/
def RunAlike (sameKey sameFlags : Prop) (r r' : Result) : Prop :=
  ∀ t, r = .next t → ∃ t', r' = .next t' ∧ Alike sameKey sameFlags t t'

/-- If the first access completes, so does the second, in a state alike. -/
def AccessAlike (sameKey sameFlags : Prop) (r r' : Except Fault State) : Prop :=
  ∀ u, r = .ok u → ∃ u', r' = .ok u' ∧ Alike sameKey sameFlags u u'

section
variable {P Q : Prop} {s s' : State}

/-! ## Updates keep states alike -/

theorem Alike.respond (h : Alike P Q s s') (x : Code) (y : Byte) : Alike P Q (respond x y s) (respond x y s') := by
  obtain ⟨k, a, b, c, d, rfl, hk, hf⟩ := h
  exact ⟨k, a, b, c, d, rfl, hk, hf⟩

theorem Alike.setSticky (h : Alike P Q s s') (x : Code) : Alike P Q (setSticky x s) (setSticky x s') := by
  obtain ⟨k, a, b, c, d, rfl, hk, hf⟩ := h
  refine ⟨k, a || decide (x = .padfail), b || decide (x = .overflow), c || decide (x = .illegal),
    d || decide (x = .seq), ?_, by simpa using hk, fun hQ => ?_⟩
  · cases x with
    | ok | padfail | overflow | illegal | empty | seq => simp [Machine.setSticky]
  · obtain ⟨rfl, rfl, rfl, rfl⟩ := hf hQ
    simp

theorem Alike.raise (h : Alike P Q s s') (x : Code) : Alike P Q (raise x s) (raise x s') :=
  (h.setSticky x).respond x 0x00#8

theorem Alike.clearSticky (h : Alike P Q s s') : Alike P Q (clearSticky s) (clearSticky s') := by
  obtain ⟨k, a, b, c, d, rfl, hk, -⟩ := h
  exact ⟨k, false, false, false, false, rfl, hk, fun _ => ⟨rfl, rfl, rfl, rfl⟩⟩

/-- 41_key_deriver.md R102: the byte goes into K, at a place that KPOS alone gives. -/
theorem Alike.accumulate (h : Alike P Q s s') (x : Byte) : Alike P Q (accumulate x s) (accumulate x s') := by
  obtain ⟨k, a, b, c, d, rfl, hk, hf⟩ := h
  refine ⟨k.set (keyIndex s) (shl32 (k.get (keyIndex s)) 8 ||| zext32 x), a, b, c, d, rfl, fun hP => ?_, hf⟩
  rw [hk hP]
  rfl

theorem Alike.zeroFill (h : Alike P Q s s') (n : Nat) : Alike P Q (zeroFill n s) (zeroFill n s') := by
  induction n generalizing s s' with
  | zero => exact h
  | succ n ih =>
    have hkpos : s'.kpos = s.kpos := by
      obtain ⟨k, a, b, c, d, rfl, -, -⟩ := h
      rfl
    unfold Machine.zeroFill
    rw [hkpos]
    split
    · exact ih (h.accumulate 0x00#8)
    · exact h

/-- The end of a derivation writes neither K nor a flag. -/
theorem Alike.closeKey (h : Alike P Q s s') :
    Alike P Q { s with kacc := false, kvalid := true } { s' with kacc := false, kvalid := true } := by
  obtain ⟨k, a, b, c, d, rfl, hk, hf⟩ := h
  exact ⟨k, a, b, c, d, rfl, hk, hf⟩

theorem Alike.setLen (h : Alike P Q s s') (n : Nat) : Alike P Q { s with len := n } { s' with len := n } := by
  obtain ⟨k, a, b, c, d, rfl, hk, hf⟩ := h
  exact ⟨k, a, b, c, d, rfl, hk, hf⟩

theorem Alike.setBidx (h : Alike P Q s s') (n : Nat) : Alike P Q { s with bidx := n } { s' with bidx := n } := by
  obtain ⟨k, a, b, c, d, rfl, hk, hf⟩ := h
  exact ⟨k, a, b, c, d, rfl, hk, hf⟩

/-! ## Accesses to BUF -/

theorem Alike.memWrite (h : Alike P Q s s') (x : Nat) (v : Byte) :
    AccessAlike P Q (memWrite x v s) (memWrite x v s') := by
  obtain ⟨k, a, b, c, d, rfl, hk, hf⟩ := h
  intro u hu
  obtain ⟨hlt, rfl⟩ := (memWrite_eq_ok_iff x v s u).mp hu
  exact ⟨_, (memWrite_eq_ok_iff x v _ _).mpr ⟨hlt, rfl⟩, k, a, b, c, d, rfl, hk, hf⟩

theorem Alike.writeBytes (h : Alike P Q s s') (x : Nat) (bs : List Byte) :
    AccessAlike P Q (writeBytes x bs s) (writeBytes x bs s') := by
  induction bs generalizing x s s' with
  | nil =>
    rintro u ⟨⟩
    exact ⟨s', rfl, h⟩
  | cons v bs ih =>
    intro u hu
    cases hw : Machine.memWrite x v s with
    | error f => simp [Machine.writeBytes, hw] at hu
    | ok m =>
      obtain ⟨m', hw', hm⟩ := h.memWrite x v m hw
      simp only [Machine.writeBytes, hw, hw'] at hu ⊢
      exact ih hm (x + 1) u hu

theorem Alike.tailMatches (h : Alike P Q s s') (p : Byte) (js : List Nat) :
    tailMatches s' p js = tailMatches s p js := by
  induction js with
  | nil => rfl
  | cons j js ih =>
    have hread : memRead s' (tailAddr s' j) = memRead s (tailAddr s j) := by
      obtain ⟨k, a, b, c, d, rfl, -, -⟩ := h
      rfl
    simp only [Machine.tailMatches, hread, ih]

/-! ## The parts a meaning is made of -/

theorem RunAlike.next (h : Alike P Q s s') : RunAlike P Q (.next s) (.next s') := by
  rintro t ⟨⟩
  exact ⟨s', rfl, h⟩

theorem RunAlike.ite {p : Prop} [Decidable p] {r₁ r₂ r₁' r₂' : Result} (h₁ : RunAlike P Q r₁ r₁')
    (h₂ : RunAlike P Q r₂ r₂') : RunAlike P Q (if p then r₁ else r₂) (if p then r₁' else r₂') := by
  split
  · exact h₁
  · exact h₂

/-- A read that gives both runs the same. -/
theorem RunAlike.read {α : Type} {r r' : Except Fault α} {f f' : α → Result} (hr : r' = r)
    (hf : ∀ x, RunAlike P Q (f x) (f' x)) : RunAlike P Q (orFault r f) (orFault r' f') := by
  subst hr
  cases r' with
  | ok x => exact hf x
  | error e => rintro t ⟨⟩

theorem RunAlike.write {r r' : Except Fault State} {f f' : State → Result} (hr : AccessAlike P Q r r')
    (hf : ∀ u u', Alike P Q u u' → RunAlike P Q (f u) (f' u')) : RunAlike P Q (orFault r f) (orFault r' f') := by
  intro t ht
  obtain ⟨u, hu, hnext⟩ := (orFault_eq_next_iff r f t).mp ht
  obtain ⟨u', hu', halike⟩ := hr u hu
  subst hu'
  exact hf u u' halike t hnext

/-! ## The commands -/

theorem execKbyte_alike (h : Alike P Q s s') (x : Byte) : RunAlike P Q (execKbyte x s) (execKbyte x s') := by
  have hraise := RunAlike.next (h.raise .seq)
  have hacc := RunAlike.next ((h.accumulate x).respond .ok 0x00#8)
  have hskip := RunAlike.next (h.respond .ok 0x00#8)
  obtain ⟨k, a, b, c, d, rfl, -, -⟩ := h
  exact .ite hraise (.ite hacc hskip)

theorem execKfin_alike (h : Alike P Q s s') : RunAlike P Q (execKfin s) (execKfin s') := by
  have hraise := RunAlike.next (h.raise .seq)
  have hfill := RunAlike.next ((h.zeroFill 16).closeKey.respond .ok (s.kpos.setWidth 8))
  obtain ⟨k, a, b, c, d, rfl, -, -⟩ := h
  exact .ite hraise hfill

theorem execBpush_alike (h : Alike P Q s s') (x : Byte) : RunAlike P Q (execBpush x s) (execBpush x s') := by
  have hraise := RunAlike.next (h.raise .overflow)
  have hwrite := h.memWrite s.len x
  obtain ⟨k, a, b, c, d, rfl, -, -⟩ := h
  exact .ite hraise (.write hwrite fun u u' hu => .next ((hu.setLen (s.len + 1)).respond .ok 0x00#8))

theorem execBread_alike (h : Alike P Q s s') : RunAlike P Q (execBread s) (execBread s') := by
  obtain ⟨k, a, b, c, d, rfl, hk, hf⟩ := h
  exact .ite (.next ⟨k, a, b, c, d, rfl, hk, hf⟩) (.read rfl fun _ => .next ⟨k, a, b, c, d, rfl, hk, hf⟩)

theorem execPad_alike (h : Alike P Q s s') : RunAlike P Q (execPad s) (execPad s') := by
  have hraise := RunAlike.next (h.raise .overflow)
  have hwrite := h.writeBytes s.len (List.replicate (padValue s.len) (BitVec.ofNat 8 (padValue s.len)))
  obtain ⟨k, a, b, c, d, rfl, -, -⟩ := h
  exact .ite hraise (.write hwrite fun u u' hu => .next ((hu.setLen (s.len + padValue s.len)).respond .ok _))

theorem execUnpad_alike (h : Alike P Q s s') : RunAlike P Q (execUnpad s) (execUnpad s') := by
  have hraise := RunAlike.next (h.raise .padfail)
  have htail := h.tailMatches
  obtain ⟨k, a, b, c, d, rfl, hk, hf⟩ := h
  exact .ite hraise (.read rfl fun p => .ite hraise (.ite hraise (.ite hraise
    (.read (htail p _) fun ok => .ite (.next ⟨k, a, b, c, d, rfl, hk, hf⟩) hraise))))

theorem execLdb_alike (h : Alike P Q s s') : RunAlike P Q (execLdb s) (execLdb s') := by
  obtain ⟨k, a, b, c, d, rfl, hk, hf⟩ := h
  exact .read rfl fun _ => .next ⟨k, a, b, c, d, rfl, hk, hf⟩

theorem execStb_alike (h : Alike P Q s s') : RunAlike P Q (execStb s) (execStb s') := by
  have hseq := RunAlike.next (h.raise .seq)
  have hovf := RunAlike.next (h.raise .overflow)
  have hwrite := h.writeBytes (8 * s.bidx) (unpackBlock s.v).bytes
  obtain ⟨k, a, b, c, d, rfl, -, -⟩ := h
  exact .ite hseq (.ite hovf (.write hwrite fun u u' hu =>
    .next (((hu.setLen (max s.len (8 * s.bidx + 8))).setBidx (s.bidx + 1)).respond .ok 0x00#8)))

theorem execEnc_alike (h : Alike P Q s s') : RunAlike P Q (execEnc s) (execEnc s') := by
  have hraise := RunAlike.next (h.raise .seq)
  obtain ⟨k, a, b, c, d, rfl, hk, hf⟩ := h
  exact .ite hraise (.next ⟨k, a, b, c, d, rfl, hk, hf⟩)

theorem execDec_alike (h : Alike P Q s s') : RunAlike P Q (execDec s) (execDec s') := by
  have hraise := RunAlike.next (h.raise .seq)
  obtain ⟨k, a, b, c, d, rfl, hk, hf⟩ := h
  exact .ite hraise (.next ⟨k, a, b, c, d, rfl, hk, hf⟩)

/-- STAT alone reads the flags, and no command reads K into anything but K. -/
theorem exec_alike {i : Instr} (h : Alike P Q s s') (hstat : i = .stat → Q) : RunAlike P Q (exec i s) (exec i s') := by
  cases i with
  | stat =>
    obtain ⟨k, a, b, c, d, rfl, hk, hf⟩ := h
    obtain ⟨rfl, rfl, rfl, rfl⟩ := hf (hstat rfl)
    exact .next ⟨k, s.paderr, s.ovf, s.ill, s.seqerr, rfl, hk, hf⟩
  | clrf => exact .next (h.clearSticky.respond .ok 0x00#8)
  | kinit =>
    obtain ⟨k, a, b, c, d, rfl, -, hf⟩ := h
    exact .next ⟨⟨0#32, 0#32, 0#32, 0#32⟩, a, b, c, d, rfl, fun _ => rfl, hf⟩
  | bclr | brew =>
    obtain ⟨k, a, b, c, d, rfl, hk, hf⟩ := h
    exact .next ⟨k, a, b, c, d, rfl, hk, hf⟩
  | kbyte x => exact execKbyte_alike h x
  | kfin => exact execKfin_alike h
  | bpush x => exact execBpush_alike h x
  | bread => exact execBread_alike h
  | pad => exact execPad_alike h
  | unpad => exact execUnpad_alike h
  | ldb => exact execLdb_alike h
  | stb => exact execStb_alike h
  | enc => exact execEnc_alike h
  | dec => exact execDec_alike h

end

/-! ## K and the flags, each alone -/

/-- Settles O49: the flags differ and K does not; STAT, whose answer shows the flags, is taken alone. -/
theorem flagsBlockNothing : Obligations.FlagsBlockNothing := by
  intro i s t a b c d h
  by_cases hi : i = .stat
  · subst hi
    cases h
    exact ⟨_, rfl, rfl, fun hne => absurd rfl hne⟩
  · have halike : Alike True False s { s with paderr := a, ovf := b, ill := c, seqerr := d } :=
      ⟨s.k, a, b, c, d, rfl, fun _ => rfl, nofun⟩
    obtain ⟨u, hu, k, a', b', c', d', rfl, hk, -⟩ := exec_alike halike (fun hs => absurd hs hi) t h
    rw [hk trivial] at hu
    exact ⟨_, hu, rfl, fun _ => rfl⟩

/-- Settles O52: K differs and the flags do not. -/
theorem noCommandReadsTheKeyOut : Obligations.NoCommandReadsTheKeyOut := by
  intro i s t k h
  have halike : Alike False True s { s with k := k } :=
    ⟨k, s.paderr, s.ovf, s.ill, s.seqerr, rfl, nofun, fun _ => ⟨rfl, rfl, rfl, rfl⟩⟩
  obtain ⟨u, hu, k', a, b, c, d, rfl, -, hf⟩ := exec_alike halike (fun _ => trivial) t h
  obtain ⟨rfl, rfl, rfl, rfl⟩ := hf trivial
  exact ⟨k', hu⟩

end Sys2Proof.Machine
end

section
/-! PROOFS. The canonical form of BUF, addresses strictly rising (10_state.md R34, log 5), from any state: only the commands
that list BUF in the column Written by of R20 can break it, and each of them writes with `set` or forgets with `below`. -/

namespace Sys2Proof.Machine

open Sys2Proof

/-! ## The commands that write BUF -/

theorem execBpush_buf_wf {b : Byte} {s t : State} (hs : s.buf.wf = true) (h : execBpush b s = .next t) :
    t.buf.wf = true := by
  rcases execBpush_cases h with ⟨-, rfl⟩ | ⟨-, rfl⟩
  · rwa [raise_buf]
  · exact Memory.set_wf s.buf s.len b hs

theorem execPad_buf_wf {s t : State} (hs : s.buf.wf = true) (h : execPad s = .next t) : t.buf.wf = true := by
  rcases execPad_cases h with ⟨-, rfl⟩ | ⟨-, u, hu, rfl⟩
  · rwa [raise_buf]
  · obtain ⟨-, -, hwf⟩ := writeBytes_spec hu
    exact hwf hs

theorem execUnpad_buf_wf {s t : State} (hs : s.buf.wf = true) (h : execUnpad s = .next t) : t.buf.wf = true := by
  rcases execUnpad_cases h with rfl | ⟨-, p, -, -, -, -, -, rfl⟩
  · rwa [raise_buf]
  · exact Memory.below_wf s.buf (s.len - p.toNat) hs

theorem execStb_buf_wf {s t : State} (hs : s.buf.wf = true) (h : execStb s = .next t) : t.buf.wf = true := by
  rcases execStb_cases h with ⟨-, rfl⟩ | ⟨-, -, rfl⟩ | ⟨-, -, u, hu, rfl⟩
  · rwa [raise_buf]
  · rwa [raise_buf]
  · obtain ⟨-, -, hwf⟩ := writeBytes_spec hu
    exact hwf hs

theorem execBclr_buf_wf {s t : State} (hs : s.buf.wf = true) (h : execBclr s = .next t) : t.buf.wf = true := by
  cases h
  exact Memory.below_wf s.buf 0 hs

/-! ## Every command, and every step -/

/-- A command that R20 does not list for BUF leaves it equal; the five listed keep its canonical form. -/
theorem exec_buf_wf {i : Instr} {s t : State} (hs : s.buf.wf = true) (h : exec i s = .next t) : t.buf.wf = true := by
  by_cases hbuf : t.buf = s.buf
  · rwa [hbuf]
  · obtain ⟨-, -, -, -, -, -, -, -, -, -, -, -, -, -, -, -, -, hwrites⟩ := onlyListedCommandsWriteARegister i s t h
    rcases hwrites hbuf with hmem | ⟨b, rfl⟩
    · simp only [List.mem_cons, List.not_mem_nil, or_false] at hmem
      rcases hmem with rfl | rfl | rfl | rfl
      · exact execPad_buf_wf hs h
      · exact execStb_buf_wf hs h
      · exact execBclr_buf_wf hs h
      · exact execUnpad_buf_wf hs h
    · exact execBpush_buf_wf hs h

@[simp] theorem endRun_buf (s : State) : (endRun s).buf = s.buf := by
  rcases endRun_cases s with ⟨-, heq⟩ | ⟨-, heq⟩
  · rw [heq, respond_buf]
  · rw [heq]

/-- 42_cipher.md R119: a micro-step leaves BUF as it is. -/
@[simp] theorem microStep_buf (s : State) : (microStep s).buf = s.buf := by
  rcases microStep_cases s with ⟨-, heq⟩ | ⟨-, heq⟩ | ⟨-, heq⟩
  · rw [heq]
  · rw [heq, endRun_buf, encryptRound_buf]
  · rw [heq, endRun_buf, decryptRound_buf]

/-- Settles O53, by the cases of a step: after a reset BUF lists nothing; a command keeps the form; an illegal word and a
micro-step leave BUF as it is. -/
theorem stepKeepsMemoryCanonical : Obligations.StepKeepsMemoryCanonical := by
  intro s t hs h
  rcases step_cases h with ⟨rest, -, rfl⟩ | ⟨w, rest, i, -, -, -, hexec⟩ | ⟨w, rest, e, -, -, -, rfl⟩ | ⟨rest, rfl, -⟩
  · rfl
  · exact exec_buf_wf (s := consume rest s) hs hexec
  · rwa [raise_buf, consume_buf]
  · rwa [microStep_buf, consume_buf]

end Sys2Proof.Machine
end

section
/-! PROOFS. The decoder and the encoder agree (30_encoding.md R74, R78, R80): a word is a command exactly when its opcode
byte and its operand byte are the command's, and every other word is illegal under one of two reasons. Each of the other
statements about words, masks and assembler lines is read off these facts. -/

namespace Sys2Proof

open Machine

/-! ## The two bytes of a word -/

theorem immField_encode (i : Instr) : immField (encode i) = i.operandByte := immField_append _ _

theorem eq_append_iff (w : CmdWord) (a b : Byte) : w = a ++ b ↔ opField w = a ∧ immField w = b := by
  constructor
  · rintro rfl
    exact ⟨opField_append a b, immField_append a b⟩
  · rintro ⟨rfl, rfl⟩
    exact (opField_append_immField w).symm

theorem eq_encode_iff (w : CmdWord) (i : Instr) : w = encode i ↔ opField w = i.opcode ∧ immField w = i.operandByte :=
  eq_append_iff w i.opcode i.operandByte

/-! ## Decode and encode agree -/

theorem decode_encode (i : Instr) : decode (encode i) = .ok i := by
  cases i with
  | kbyte b => simp [decode, encode, Instr.opcode, Instr.operandByte, opField_append, immField_append]
  | bpush b => simp [decode, encode, Instr.opcode, Instr.operandByte, opField_append, immField_append]
  | stat | clrf | kinit | kfin | bclr | brew | bread | pad | unpad | ldb | stb | enc | dec => rfl

/-- Each arm of the decoder has tested the opcode byte, and an N-form arm the operand byte too. -/
theorem eq_encode_of_decode {w : CmdWord} {i : Instr} (h : decode w = .ok i) : w = encode i := by
  rw [eq_encode_iff]
  unfold decode at h
  split at h
  case h_4 hop | h_7 hop =>
    cases h
    exact ⟨hop, rfl⟩
  case h_16 => cases h
  all_goals
    next hop =>
    obtain ⟨himm, rfl⟩ := (decodeN_eq_ok_iff _ _ _).mp h
    exact ⟨hop, himm⟩

/-- Settles O3: `decode_encode` in one direction, and in the other the bytes the decoder has tested. -/
theorem decodeAndEncodeAgree : Obligations.DecodeAndEncodeAgree := by
  intro w i
  constructor
  · exact eq_encode_of_decode
  · rintro rfl
    exact decode_encode i

/-- Settles O1: fifteen words are encodings; of the four illegal ones the decoder gives the reason. -/
theorem writtenOutWordsDecode : Obligations.WrittenOutWordsDecode :=
  ⟨decode_encode .stat, decode_encode .clrf, decode_encode .kinit, decode_encode (.kbyte 0xA5#8), decode_encode .kfin,
    decode_encode .bclr, decode_encode (.bpush 0x68#8), decode_encode .brew, decode_encode .bread, decode_encode .pad,
    decode_encode .unpad, decode_encode .ldb, decode_encode .stb, decode_encode .enc, decode_encode .dec,
    rfl, rfl, rfl, rfl⟩

/-! ## The command of a mnemonic and an operand byte -/

/-- The command of a row of the opcode map; an N-form row has no use for the byte (R71). -/
def Mnemonic.command (m : Mnemonic) (b : Byte) : Instr :=
  match m with
  | .STAT  => .stat
  | .CLRF  => .clrf
  | .KINIT => .kinit
  | .KBYTE => .kbyte b
  | .KFIN  => .kfin
  | .BCLR  => .bclr
  | .BPUSH => .bpush b
  | .BREW  => .brew
  | .BREAD => .bread
  | .PAD   => .pad
  | .UNPAD => .unpad
  | .LDB   => .ldb
  | .STB   => .stb
  | .ENC   => .enc
  | .DEC   => .dec

@[simp] theorem Mnemonic.mnemonic_command (m : Mnemonic) (b : Byte) : (m.command b).mnemonic = m := by cases m <;> rfl

theorem Instr.command_mnemonic (i : Instr) : i.mnemonic.command i.operandByte = i := by cases i <;> rfl

theorem Mnemonic.operandByte_command_of_form_b {m : Mnemonic} (hm : m.form = .b) (b : Byte) :
    (m.command b).operandByte = b := by
  cases m with
  | KBYTE | BPUSH => rfl
  | _ => cases hm

theorem Instr.operandByte_of_form_n {i : Instr} (hi : i.mnemonic.form = .n) : i.operandByte = 0x00#8 := by
  cases i with
  | kbyte b | bpush b => cases hi
  | _ => rfl

/-! ## The rows of the opcode map -/

theorem Instr.opcode_eq_of_mnemonic_eq {i j : Instr} (h : j.mnemonic = i.mnemonic) : j.opcode = i.opcode := by
  rw [← i.command_mnemonic, ← j.command_mnemonic, h]
  cases i.mnemonic <;> rfl

theorem Instr.tableMatch_eq (i : Instr) : i.tableMatch = i.opcode ++ 0x00#8 := by
  cases i <;> simp [Instr.tableMatch, Instr.opcode]

/-- R74's test on the two bytes: the opcode byte is the row's, and an N-form row asks for the operand byte 0x00. -/
theorem and_tableMask_eq_tableMatch_iff (w : CmdWord) (i : Instr) :
    w &&& i.tableMask = i.tableMatch ↔ opField w = i.opcode ∧ (i.mnemonic.form = .n → immField w = 0x00#8) := by
  rw [i.tableMatch_eq]
  unfold Instr.tableMask
  cases hform : i.mnemonic.form with
  | n =>
    have hmask : w &&& 0xFFFF#16 = w := BitVec.and_allOnes
    simp only [hmask, eq_append_iff, true_imp_iff]
  | b =>
    have hmask : w &&& 0xFF00#16 = opField w ++ 0x00#8 := by
      conv_lhs => rw [← opField_append_immField w, append_and_ff00]
    simp [hmask, eq_append_iff, opField_append, immField_append]

/-- Settles O2: a matching word is the encoding of its row's command with the word's operand byte, and the encoding of a
command of the row matches. -/
theorem decodeFollowsMaskAndMatch : Obligations.DecodeFollowsMaskAndMatch := by
  intro w i
  rw [and_tableMask_eq_tableMatch_iff]
  constructor
  · rintro ⟨hop, himm⟩
    have hmnem : (i.mnemonic.command (immField w)).mnemonic = i.mnemonic := i.mnemonic.mnemonic_command _
    refine ⟨i.mnemonic.command (immField w), (decodeAndEncodeAgree _ _).mpr ?_, hmnem⟩
    rw [eq_encode_iff, Instr.opcode_eq_of_mnemonic_eq hmnem]
    refine ⟨hop, ?_⟩
    cases hform : i.mnemonic.form with
    | n => rw [Instr.operandByte_of_form_n (by rwa [hmnem]), himm hform]
    | b => rw [Mnemonic.operandByte_command_of_form_b hform]
  · rintro ⟨j, hj, hmnem⟩
    obtain ⟨hop, himm⟩ := (eq_encode_iff w j).mp (eq_encode_of_decode hj)
    rw [← hmnem]
    exact ⟨hop.trans (Instr.opcode_eq_of_mnemonic_eq hmnem), fun hform => himm.trans (Instr.operandByte_of_form_n hform)⟩

/-! ## Illegal words -/

/-- The `op` column of R74. -/
def definedOpcodes : List Byte :=
  [0x01#8, 0x02#8, 0x10#8, 0x11#8, 0x12#8, 0x20#8, 0x21#8, 0x22#8, 0x23#8, 0x24#8, 0x25#8, 0x30#8, 0x31#8, 0x40#8, 0x41#8]

/-- R80: every word falls under (1), under (2), or is a command. -/
theorem decode_cases (w : CmdWord) :
    (decode w = .error (.undefinedOpcode (opField w)) ∧ opField w ∉ definedOpcodes) ∨
    (decode w = .error (.operandNotZero (opField w)) ∧ opField w ∈ definedOpcodes ∧ opField w ≠ 0x11#8 ∧
      opField w ≠ 0x21#8 ∧ immField w ≠ 0x00#8) ∨
    (∃ i, decode w = .ok i ∧ opField w ∈ definedOpcodes ∧
      (opField w = 0x11#8 ∨ opField w = 0x21#8 ∨ immField w = 0x00#8)) := by
  unfold decode
  split
  case h_4 hop => exact .inr (.inr ⟨_, rfl, by rw [hop]; decide, .inl hop⟩)
  case h_7 hop => exact .inr (.inr ⟨_, rfl, by rw [hop]; decide, .inr (.inl hop)⟩)
  case h_16 => exact .inl ⟨rfl, fun hmem => by simp_all [definedOpcodes]⟩
  all_goals
    next hop =>
    unfold decodeN
    split
    · next himm => exact .inr (.inr ⟨_, rfl, by rw [hop]; decide, .inr (.inr himm)⟩)
    · next himm => exact .inr (.inl ⟨rfl, by rw [hop]; decide, by rw [hop]; decide, by rw [hop]; decide, himm⟩)

/-- Settles O4: the conditions of `decode_cases` exclude each other, and so do the three answers. -/
theorem illegalWordsAreExactlyThese : Obligations.IllegalWordsAreExactlyThese := by
  intro w
  change (decode w = .error (.undefinedOpcode (opField w)) ↔ opField w ∉ definedOpcodes) ∧
    (decode w = .error (.operandNotZero (opField w)) ↔ opField w ∈ definedOpcodes ∧ opField w ≠ 0x11#8 ∧
      opField w ≠ 0x21#8 ∧ immField w ≠ 0x00#8) ∧
    ((∃ i, decode w = .ok i) ↔ opField w ∈ definedOpcodes ∧
      (opField w = 0x11#8 ∨ opField w = 0x21#8 ∨ immField w = 0x00#8))
  rcases decode_cases w with ⟨hd, hop⟩ | ⟨hd, hop, hkbyte, hbpush, himm⟩ | ⟨i, hd, hop, hform⟩
  · simp [hd, hop]
  · simp [hd, hop, hkbyte, hbpush, himm]
  · refine ⟨by simp [hd, hop], ?_, fun _ => ⟨hop, hform⟩, fun _ => ⟨i, hd⟩⟩
    simp only [hd, reduceCtorEq, false_iff]
    tauto

/-! ## Assembler lines -/

theorem AsmOperand.value_lt_of_wellFormed {o : AsmOperand} (h : o.wellFormed = true) : o.value < 256 := by
  cases o with
  | decimal v | hexadecimal v =>
    simp only [AsmOperand.wellFormed, decide_eq_true_eq] at h
    exact Nat.lt_succ_of_le h
  | quoted c =>
    simp only [AsmOperand.wellFormed, Bool.and_eq_true, decide_eq_true_eq] at h
    simp only [AsmOperand.value]
    omega

/-- R78: the two shapes of a well-formed line. -/
theorem AsmLine.cases_of_wellFormed {l : AsmLine} (h : l.wellFormed = true) :
    (l.mnemonic.form = .n ∧ l.operand = none) ∨
    (l.mnemonic.form = .b ∧ ∃ o, l.operand = some o ∧ o.wellFormed = true) := by
  unfold AsmLine.wellFormed at h
  split at h
  · next hform hop => exact .inl ⟨hform, hop⟩
  · cases h
  · cases h
  · next o hform hop => exact .inr ⟨hform, o, hop, h⟩

theorem AsmLine.assemble_of_form_n {l : AsmLine} (hl : l.wellFormed = true) (hform : l.mnemonic.form = .n) :
    l.assemble = some (l.mnemonic.command 0x00#8) := by
  unfold AsmLine.assemble
  rw [if_pos hl]
  cases hm : l.mnemonic with
  | KBYTE | BPUSH => rw [hm] at hform; cases hform
  | _ => rfl

theorem AsmLine.assemble_of_form_b {l : AsmLine} {o : AsmOperand} (hl : l.wellFormed = true)
    (hform : l.mnemonic.form = .b) (hop : l.operand = some o) :
    l.assemble = some (l.mnemonic.command (BitVec.ofNat 8 o.value)) := by
  unfold AsmLine.assemble
  rw [if_pos hl, hop]
  cases hm : l.mnemonic with
  | KBYTE | BPUSH => rfl
  | _ => rw [hm] at hform; cases hform

/-- Settles O5, by the two shapes of a well-formed line. -/
theorem wellFormedLinesAssemble : Obligations.WellFormedLinesAssemble := by
  refine ⟨fun l => ⟨fun hl => ?_, fun hl => by simp [AsmLine.assemble, hl]⟩,
    fun i => ⟨i.wellFormed_true, i.assemble_line⟩⟩
  rcases AsmLine.cases_of_wellFormed hl with ⟨hform, hnone⟩ | ⟨hform, o, hop, ho⟩
  · exact ⟨_, AsmLine.assemble_of_form_n hl hform, Mnemonic.mnemonic_command _ _, by simp [hnone]⟩
  · refine ⟨_, AsmLine.assemble_of_form_b hl hform hop, Mnemonic.mnemonic_command _ _, fun o' ho' => ?_⟩
    cases hop.symm.trans ho'
    exact ⟨(immField_encode _).trans (Mnemonic.operandByte_command_of_form_b hform _), AsmOperand.value_lt_of_wellFormed ho⟩

end Sys2Proof
end

section
/-! PROOFS. What an idle core does with the word at the command port (30_encoding.md R70, R75, R80), when a step raises a
response (70_reset_and_hazards.md R209), and the form of the responses (R72, 60_exceptions.md R182). -/

namespace Sys2Proof.Machine

open Sys2Proof

/-! ## The word at the command port -/

theorem acceptWord_of_ok {w : CmdWord} {i : Instr} (h : decode w = .ok i) (s : State) : acceptWord w s = exec i s := by
  simp [acceptWord, h]

theorem acceptWord_of_error {w : CmdWord} {e : IllegalWord} (h : decode w = .error e) (s : State) :
    acceptWord w s = .next (raise .illegal s) := by
  simp [acceptWord, h]

/-- Settles O6: an idle core accepts the word at its port, and an accepted word that decodes is executed. -/
theorem stepRunsTheDecodedCommand : Obligations.StepRunsTheDecodedCommand := by
  intro s w rest i hp hi hd
  rw [step_of_command_idle hi hp, acceptWord_of_ok hd]
  rfl

theorem tableWord_toNat (w : CmdWord) : tableWord 16 w.toNat = w := by
  rw [tableWord, Nat.mod_eq_of_lt w.isLt, BitVec.ofNat_toNat, BitVec.setWidth_eq]

/-- Settles O7: the word is first at the port of an idle core, and it decodes to the command it encodes. -/
theorem thePresentedWordRunsNext : Obligations.ThePresentedWordRunsNext := by
  intro s i
  have hd : decode (tableWord 16 (encode i).toNat) = .ok i := by rw [tableWord_toNat, decode_encode]
  exact stepRunsTheDecodedCommand (s.withFetchWord 16 (encode i).toNat) _ s.inbox i rfl rfl hd

/-- Settles O8: raising ILLEGAL sets the flag and puts 0x3000 on the port. -/
theorem stepRefusesIllegalWords : Obligations.StepRefusesIllegalWords := by
  intro s w rest e hp hi hd
  rw [step_of_command_idle hi hp, acceptWord_of_error hd]
  rfl

/-! ## The fields of a response word -/

theorem respWord_code (c : Code) (d : Byte) : (respWord c d).extractLsb' 12 4 = c.bits := by
  rw [respWord, BitVec.extractLsb'_append_eq_of_le (by decide)]
  exact BitVec.extractLsb'_append_eq_left

theorem respWord_zeros (c : Code) (d : Byte) : (respWord c d).extractLsb' 8 4 = 0#4 := by
  rw [respWord, BitVec.extractLsb'_append_eq_of_le (by decide)]
  exact BitVec.extractLsb'_append_eq_right

theorem respWord_data (c : Code) (d : Byte) : (respWord c d).extractLsb' 0 8 = d :=
  BitVec.extractLsb'_append_eq_right

theorem Code.bits_le_five (c : Code) : c.bits.toNat ≤ 5 := by cases c <;> decide

/-- No two codes have one number. -/
theorem Code.bits_inj {c c' : Code} : c.bits = c'.bits ↔ c = c' := by cases c <;> cases c' <;> decide

/-! ## What a command answers -/

/-- Command `i` may answer with code `c` and data byte `d` (30_encoding.md R72, 60_exceptions.md R182). -/
structure MayAnswer (i : Instr) (c : Code) (d : Byte) : Prop where
  data_zero : c ≠ .ok → d = 0x00#8
  padfail   : c = .padfail → i = .unpad
  empty     : c = .empty → i = .bread
  legal     : c ≠ .illegal
  data_of   : d ≠ 0x00#8 → i ∈ [.stat, .kfin, .bread, .pad, .unpad, .ldb]

/-- A command that completes has answered and left PHASE as it was, or it has started a run and not answered (log 4). -/
theorem exec_response {i : Instr} {s t : State} (h : exec i s = .next t) :
    (∃ c d, t.resp = some (respWord c d) ∧ t.phase = s.phase ∧ MayAnswer i c d) ∨
    (t.resp = s.resp ∧ t.phase ≠ .idle) := by
  rcases exec_cases h with ⟨rfl, rfl⟩ | ⟨-, rfl⟩ | ⟨-, rfl⟩ | ⟨-, -, rfl⟩ | ⟨b, -, -, -, rfl⟩ |
    ⟨b, -, -, -, rfl⟩ | ⟨rfl, -, rfl⟩ | ⟨-, rfl⟩ | ⟨-, -, rfl⟩ | ⟨b, -, -, rfl⟩ | ⟨-, rfl⟩ |
    ⟨rfl, -, rfl⟩ | ⟨rfl, -, b, rfl⟩ | ⟨rfl, -, u, -, rfl⟩ | ⟨rfl, rfl⟩ | ⟨rfl, -, p, -, -, rfl⟩ | ⟨rfl, c, rfl⟩ |
    ⟨-, -, rfl⟩ | ⟨-, -, -, rfl⟩ | ⟨-, -, -, u, -, rfl⟩ | ⟨-, -, rfl⟩ | ⟨-, -, rfl⟩ | ⟨-, -, rfl⟩
  -- the last two cases of `exec_cases` start a run, ENC's and DEC's
  on_goal -1 => exact .inr ⟨rfl, nofun⟩
  on_goal -1 => exact .inr ⟨rfl, nofun⟩
  all_goals exact .inl ⟨_, _, rfl, rfl, by constructor <;> simp⟩

/-- Settles O47: the fields of the answer that `exec_response` gives. -/
theorem responseWordForm : Obligations.ResponseWordForm := by
  intro i s t r hnone h hr
  rcases exec_response h with ⟨c, d, hresp, -, hmay⟩ | ⟨hresp, -⟩
  · cases hr.symm.trans hresp
    rw [respWord_code, respWord_zeros, respWord_data]
    exact ⟨rfl, c.bits_le_five, fun hc => hmay.data_zero fun hok => hc (Code.bits_inj.mpr hok),
      fun hc => hmay.padfail (Code.bits_inj.mp hc), fun hc => hmay.empty (Code.bits_inj.mp hc),
      fun hc => hmay.legal (Code.bits_inj.mp hc), hmay.data_of⟩
  · rw [hr, hnone] at hresp
    cases hresp

/-! ## When a step raises a response -/

theorem exec_answers_iff {i : Instr} {s t : State} (h : exec i s = .next t) (hp : s.phase = .idle)
    (hnone : s.resp = none) : t.resp.isSome = true ↔ t.phase = .idle := by
  rcases exec_response h with ⟨c, d, hresp, hphase, -⟩ | ⟨hresp, hphase⟩
  · simp [hresp, hphase, hp]
  · simp [hresp, hnone, hphase]

theorem endRun_answers_iff {s : State} (hp : s.phase ≠ .idle) (hnone : s.resp = none) :
    (endRun s).resp.isSome = true ↔ (endRun s).phase = .idle := by
  rcases endRun_cases s with ⟨-, heq⟩ | ⟨-, heq⟩
  · simp [heq]
  · simp [heq, hp, hnone]

theorem microStep_answers_iff {s : State} (hp : s.phase ≠ .idle) (hnone : s.resp = none) :
    (microStep s).resp.isSome = true ↔ (microStep s).phase = .idle := by
  rcases microStep_cases s with ⟨hidle, -⟩ | ⟨-, heq⟩ | ⟨-, heq⟩
  · exact absurd hidle hp
  · rw [heq]
    exact endRun_answers_iff (s := encryptRound s) hp hnone
  · rw [heq]
    exact endRun_answers_iff (s := decryptRound s) hp hnone

/-- Settles O13, by the cases of a step: a reset and a step of waiting raise no response and accept no command; an accepted
word and a micro-step of a run raise one exactly when they leave the core idle. -/
theorem oneResponseWhenACommandEnds : Obligations.OneResponseWhenACommandEnds := by
  intro s t h
  rcases step_cases h with ⟨rest, hi, rfl⟩ | ⟨w, rest, i, hp, hi, -, hexec⟩ | ⟨w, rest, e, hp, hi, -, rfl⟩ |
    ⟨rest, rfl, hi⟩
  · simp [hi]
  · simp [exec_answers_iff hexec hp rfl, hp, hi]
  · simp [hp, hi]
  · by_cases hp : s.phase = .idle
    · have hwait : ¬ ∃ w rest', s.inbox = .command w :: rest' := by
        rcases hi with hi | ⟨hi, -⟩ | ⟨hbusy, -⟩
        · simp [hi]
        · simp [hi]
        · exact absurd hp hbusy
      rw [microStep_idle (s := consume rest s) hp]
      simp [hp, hwait]
    · have hreset : s.inbox.head? ≠ some .reset := by
        rcases hi with hi | ⟨hi, -⟩ | ⟨-, -, w, r, hi⟩ <;> simp [hi]
      rw [microStep_answers_iff (s := consume rest s) hp rfl]
      simp [hp, hreset]

end Sys2Proof.Machine
end

section
/-! PROOFS. The key deriver (41_key_deriver.md): what KINIT, KBYTE and KFIN do, the closed form of a derivation, and that no
key byte is lost on the way. The idea is the word KFIN would make of `K[i]` now (`filledWord`): a zero byte does not change
it, so the zero fill ends in it; and a key byte goes into it at the byte's final place, so after any string it is R104's word. -/

namespace Sys2Proof.Machine

open Sys2Proof

/-! ## The accumulator step -/

theorem keyIndex_val {s : State} (hlt : s.kpos.toNat < 16) : (keyIndex s).val = s.kpos.toNat / 4 :=
  Nat.mod_eq_of_lt (by omega)

/-- The cursor moves past the last byte without wrapping. -/
theorem kpos_add_one_toNat {n : BitVec 5} (hlt : n.toNat < 16) : (n + 1).toNat = n.toNat + 1 := by bv_omega

/-- 41_key_deriver.md R102: the byte goes into word `KPOS div 4`, and the other words stay. -/
theorem accumulate_k_get (b : Byte) {s : State} (hlt : s.kpos.toNat < 16) (i : Fin 4) :
    (accumulate b s).k.get i =
      if i.val = s.kpos.toNat / 4 then (s.k.get i <<< 8) ||| b.setWidth 32 else s.k.get i := by
  have hidx := keyIndex_val hlt
  rw [accumulate_k]
  split
  · next hi =>
    obtain rfl : i = keyIndex s := Fin.ext (hi.trans hidx.symm)
    exact KeyFile.get_set_same ..
  · next hi =>
    exact KeyFile.get_set_other _ _ fun heq => hi (heq ▸ hidx)

/-! ## KINIT and KBYTE -/

theorem KeyFile.get_zero (i : Fin 4) : (⟨0#32, 0#32, 0#32, 0#32⟩ : KeyFile).get i = 0#32 := by
  fin_cases i <;> rfl

/-- Settles O16: the word and the effect are R101's definition. -/
theorem kinitOpensADerivation : Obligations.KinitOpensADerivation := ⟨rfl, fun _ => rfl⟩

theorem execKbyte_closed (b : Byte) {s : State} (hk : s.kacc = false) : execKbyte b s = .next (raise .seq s) := by
  simp [execKbyte, hk]

theorem execKbyte_accumulates (b : Byte) {s : State} (hk : s.kacc = true) (hlt : s.kpos.toNat < 16) :
    execKbyte b s = .next (respond .ok 0x00#8 (accumulate b s)) := by
  have hpos : s.kpos < 16#5 := hlt
  simp [execKbyte, hk, hpos]

theorem execKbyte_drops (b : Byte) {s : State} (hk : s.kacc = true) (hge : ¬ s.kpos.toNat < 16) :
    execKbyte b s = .next (respond .ok 0x00#8 s) := by
  have hpos : ¬ s.kpos < 16#5 := hge
  simp [execKbyte, hk, hpos]

/-- Settles O17: the three guards of R102, with the accumulator step for the second. -/
theorem kbyteAccumulates : Obligations.KbyteAccumulates :=
  ⟨fun _ => rfl, fun b _ => ⟨execKbyte_closed b,
    fun hk hlt => ⟨_, execKbyte_accumulates b hk hlt, accumulate_k_get b hlt, rfl⟩, execKbyte_drops b⟩⟩

/-! ## The word KFIN would make of a key word -/

/-- `K[i]` shifted by 8 bits for each of its positions the cursor has not reached. -/
def filledWord (s : State) (i : Fin 4) : Word := s.k.get i <<< (8 * min 4 (4 * (i.val + 1) - s.kpos.toNat))

/-- With the cursor past the last byte nothing is left to fill. -/
theorem filledWord_of_kpos_eq {s : State} (hpos : s.kpos = 16#5) (i : Fin 4) : filledWord s i = s.k.get i := by
  have hrest : 4 * (i.val + 1) - 16 = 0 := by omega
  simp [filledWord, hpos, hrest]

/-- A key byte goes into the filled word at its final place, byte 3 - KPOS mod 4 of word KPOS div 4. -/
theorem filledWord_accumulate (b : Byte) {s : State} (hlt : s.kpos.toNat < 16) (i : Fin 4) :
    filledWord (accumulate b s) i =
      if i.val = s.kpos.toNat / 4 then filledWord s i ||| b.setWidth 32 <<< (8 * (3 - s.kpos.toNat % 4))
      else filledWord s i := by
  unfold filledWord
  rw [accumulate_k_get b hlt, accumulate_kpos, kpos_add_one_toNat hlt]
  split
  · next hi =>
    have hafter : 8 * min 4 (4 * (i.val + 1) - (s.kpos.toNat + 1)) = 8 * (3 - s.kpos.toNat % 4) := by omega
    have hbefore : 8 * min 4 (4 * (i.val + 1) - s.kpos.toNat) = 8 + 8 * (3 - s.kpos.toNat % 4) := by omega
    rw [hafter, hbefore, BitVec.shiftLeft_or_distrib, BitVec.shiftLeft_add]
  · next hi =>
    have hsame : min 4 (4 * (i.val + 1) - (s.kpos.toNat + 1)) = min 4 (4 * (i.val + 1) - s.kpos.toNat) := by omega
    rw [hsame]

theorem filledWord_zeroFill (n : Nat) (s : State) (i : Fin 4) : filledWord (zeroFill n s) i = filledWord s i := by
  induction n generalizing s with
  | zero => rfl
  | succ n ih =>
    unfold zeroFill
    split
    · next hlt =>
      rw [ih, filledWord_accumulate _ hlt]
      simp
    · rfl

/-! ## KFIN -/

theorem respWord_ok (d : Byte) : respWord .ok d = d.setWidth 16 :=
  (BitVec.setWidth_eq_append (v := 8) (w := 16) (by decide)).symm

theorem respWord_ok_kpos (n : BitVec 5) : respWord .ok (n.setWidth 8) = n.setWidth 16 := by
  rw [respWord_ok]
  bv_omega

theorem execKfin_closed {s : State} (hk : s.kacc = false) : execKfin s = .next (raise .seq s) := by
  simp [execKfin, hk]

theorem execKfin_opened {s : State} (hk : s.kacc = true) : execKfin s =
    .next (respond .ok (s.kpos.setWidth 8) { zeroFill 16 s with kacc := false, kvalid := true }) := by
  simp [execKfin, hk]

/-- Settles O18: the zero fill keeps the filled words and ends with the cursor past the last byte, where each word is its
filled word. -/
theorem kfinZeroFills : Obligations.KfinZeroFills := by
  intro s
  refine ⟨execKfin_closed, fun hk hle => ?_⟩
  have hpos : (zeroFill 16 s).kpos = 16#5 := zeroFill_kpos hle (Nat.le_add_left ..)
  refine ⟨_, execKfin_opened hk, fun i => ?_, ?_⟩
  · calc (zeroFill 16 s).k.get i
      _ = filledWord (zeroFill 16 s) i := (filledWord_of_kpos_eq hpos i).symm
      _ = filledWord s i := filledWord_zeroFill 16 s i
  · rw [zeroFill_frame, hpos, respond, respWord_ok_kpos]

/-! ## Commands carried to their end -/

/-- A command that leaves the core idle has no micro-steps. -/
theorem perform_of_exec_idle {i : Instr} {s t : State} (h : exec i { s with resp := none } = .next t)
    (hidle : t.phase = .idle) : perform i s = .next t := by
  rw [perform, h, thenDo_next, finishRun_idle nrounds hidle]

theorem performAll_append (is js : List Instr) (s : State) :
    performAll (is ++ js) s = thenDo (performAll is s) (performAll js) := by
  induction is generalizing s with
  | nil => rfl
  | cons i is ih =>
    simp only [List.cons_append, performAll]
    cases perform i s with
    | next t => exact ih t
    | fault f | refused r => rfl

theorem performAll_singleton (i : Instr) (s : State) : performAll [i] s = perform i s := by
  rw [performAll]
  cases perform i s <;> rfl

/-! ## The bytes of a key word (41_key_deriver.md R104) -/

theorem keyByte_of_length_le {bs : List Byte} {p : Nat} (h : bs.length ≤ p) : keyByte bs p = 0x00#8 :=
  List.getD_eq_default _ _ h

theorem keyByte_concat (bs : List Byte) (b : Byte) (p : Nat) :
    keyByte (bs ++ [b]) p = if p = bs.length then b else keyByte bs p := by
  rcases Nat.lt_trichotomy p bs.length with h | rfl | h
  · rw [if_neg h.ne, keyByte, keyByte, List.getD_append _ _ _ _ h]
  · simp [keyByte]
  · rw [if_neg h.ne', keyByte_of_length_le h.le, keyByte_of_length_le (by simpa using h)]

theorem keyWord_eq_or (bs : List Byte) (i : Nat) :
    keyWord bs i = (keyByte bs (4 * i)).setWidth 32 <<< 24 ||| (keyByte bs (4 * i + 1)).setWidth 32 <<< 16 |||
      (keyByte bs (4 * i + 2)).setWidth 32 <<< 8 ||| (keyByte bs (4 * i + 3)).setWidth 32 :=
  (BitVec.setWidth_eq _).symm.trans BitVec.setWidth_append_append_append_eq_shiftLeft_setWidth_or

/-- A byte appended to the string goes into its word where the string had a zero byte. -/
theorem keyWord_concat (bs : List Byte) (b : Byte) (i : Nat) :
    keyWord (bs ++ [b]) i =
      if i = bs.length / 4 then keyWord bs i ||| b.setWidth 32 <<< (8 * (3 - bs.length % 4)) else keyWord bs i := by
  split
  · next hi =>
    have hzero (p : Nat) (hp : bs.length ≤ p) : keyByte bs p = 0x00#8 := keyByte_of_length_le hp
    obtain ⟨j, hj, hlen⟩ : ∃ j, j < 4 ∧ bs.length = 4 * i + j :=
      ⟨bs.length % 4, Nat.mod_lt _ (by decide), by omega⟩
    simp only [keyWord_eq_or, keyByte_concat, hlen]
    rw [hlen] at hzero
    interval_cases j <;> simp [hzero]
  · next hi =>
    have h0 : 4 * i ≠ bs.length := by omega
    have h1 : 4 * i + 1 ≠ bs.length := by omega
    have h2 : 4 * i + 2 ≠ bs.length := by omega
    have h3 : 4 * i + 3 ≠ bs.length := by omega
    simp only [keyWord, keyByte_concat, h0, h1, h2, h3, if_false]

/-- 41_key_deriver.md R105: the key words read positions 0 to 15 only. -/
theorem keyWord_congr {bs cs : List Byte} (h : ∀ p < 16, keyByte bs p = keyByte cs p) {i : Nat} (hi : i < 4) :
    keyWord bs i = keyWord cs i := by
  rw [keyWord, keyWord, h (4 * i) (by omega), h (4 * i + 1) (by omega), h (4 * i + 2) (by omega), h (4 * i + 3) (by omega)]

/-! ## A derivation -/

/-- `t` is the state `s` after KINIT and one KBYTE per byte of `bs`, up to the response. -/
structure InDerivation (bs : List Byte) (s t : State) : Prop where
  frame  : t = { s with k := t.k, kpos := t.kpos, kacc := true, kvalid := false, resp := t.resp }
  cursor : t.kpos.toNat = min bs.length 16
  words  : ∀ i : Fin 4, filledWord t i = keyWord bs i.val

theorem InDerivation.kacc {bs : List Byte} {s t : State} (h : InDerivation bs s t) : t.kacc = true := by rw [h.frame]

theorem InDerivation.phase {bs : List Byte} {s t : State} (h : InDerivation bs s t) : t.phase = s.phase := by rw [h.frame]

theorem inDerivation_nil (s : State) : InDerivation [] s (respond .ok 0x00#8
    { s with k := ⟨0#32, 0#32, 0#32, 0#32⟩, kpos := 0#5, kacc := true, kvalid := false }) where
  frame := rfl
  cursor := rfl
  words i := by simp [filledWord, KeyFile.get_zero, keyWord, keyByte]

theorem InDerivation.respond {bs : List Byte} {s t : State} (h : InDerivation bs s t) (r : Option RespWord) :
    InDerivation bs s { t with resp := r } where
  frame := by rw [h.frame]
  cursor := h.cursor
  words := h.words

/-- 41_key_deriver.md R102: a byte within the first 16 goes to its place in its word. -/
theorem InDerivation.accumulate {bs : List Byte} {s t : State} (h : InDerivation bs s t) (b : Byte) (hlt : bs.length < 16) :
    InDerivation (bs ++ [b]) s (accumulate b t) := by
  have hcur : t.kpos.toNat = bs.length := by rw [h.cursor]; omega
  have hpos : t.kpos.toNat < 16 := hcur ▸ hlt
  refine ⟨by rw [h.frame]; rfl, ?_, fun i => ?_⟩
  · rw [accumulate_kpos, kpos_add_one_toNat hpos, hcur, List.length_append, List.length_singleton]
    omega
  · rw [filledWord_accumulate b hpos, h.words, hcur, keyWord_concat]

/-- 41_key_deriver.md R102: a byte past the first 16 is in none of the four words. -/
theorem InDerivation.drop {bs : List Byte} {s t : State} (h : InDerivation bs s t) (b : Byte) (hge : 16 ≤ bs.length) :
    InDerivation (bs ++ [b]) s t := by
  refine ⟨h.frame, ?_, fun i => ?_⟩
  · rw [h.cursor, List.length_append]
    omega
  · rw [h.words, keyWord_concat, if_neg (by omega)]

theorem InDerivation.kbyte {bs : List Byte} {s t : State} (h : InDerivation bs s t) (hidle : s.phase = .idle) (b : Byte) :
    ∃ u, perform (.kbyte b) t = .next u ∧ InDerivation (bs ++ [b]) s u := by
  have hcur := h.cursor
  by_cases hlt : bs.length < 16
  · exact ⟨_, perform_of_exec_idle (execKbyte_accumulates b h.kacc (by simp only; omega)) (h.phase.trans hidle),
      (h.accumulate b hlt).respond _⟩
  · exact ⟨_, perform_of_exec_idle (execKbyte_drops b h.kacc (by simp only; omega)) (h.phase.trans hidle),
      (h.drop b (by omega)).respond _⟩

/-- KINIT and any number of KBYTEs complete. -/
theorem performAll_kinit_kbytes {s : State} (hidle : s.phase = .idle) (bs : List Byte) :
    ∃ t, performAll ([.kinit] ++ bs.map .kbyte) s = .next t ∧ InDerivation bs s t := by
  induction bs using List.reverseRecOn with
  | nil =>
    exact ⟨_, (performAll_singleton .kinit s).trans (perform_of_exec_idle rfl hidle), (inDerivation_nil s).respond _⟩
  | append_singleton bs b ih =>
    obtain ⟨t, hrun, ht⟩ := ih
    obtain ⟨u, hstep, hu⟩ := ht.kbyte hidle b
    refine ⟨u, ?_, hu⟩
    rw [List.map_append, ← List.append_assoc, performAll_append, hrun, thenDo_next, List.map_singleton,
      performAll_singleton, hstep]

/-- Settles O19: before KFIN the filled words are R104's, and KFIN puts them into K. -/
theorem keyDerivationClosedForm : Obligations.KeyDerivationClosedForm := by
  intro s bs hidle
  obtain ⟨t, hrun, ht⟩ := performAll_kinit_kbytes hidle bs
  have hcur := ht.cursor
  obtain ⟨u, hexec, hwords, hframe⟩ := (kfinZeroFills { t with resp := none }).2 ht.kacc (by simp only; omega)
  have hk : u.k = ⟨keyWord bs 0, keyWord bs 1, keyWord bs 2, keyWord bs 3⟩ := by
    refine KeyFile.ext_get fun i => (hwords i).trans ((ht.words i).trans ?_)
    fin_cases i <;> rfl
  have hanswer : t.kpos.setWidth 16 = BitVec.ofNat 16 (min bs.length 16) := by
    rw [← hcur, BitVec.ofNat_toNat]
  have hphase : u.phase = .idle := by rw [hframe]; exact ht.phase.trans hidle
  rw [keyString, performAll_append, hrun, thenDo_next, performAll_singleton, perform_of_exec_idle hexec hphase,
    hframe, hk, ← hanswer, ht.frame]

/-- Settles O20: the closed form reads positions 0 to 15 of the string and nothing of the state. -/
theorem onlySixteenBytesInfluenceTheKey : Obligations.OnlySixteenBytesInfluenceTheKey := by
  intro s t bs cs hs ht hagree
  refine ⟨_, _, keyDerivationClosedForm s bs hs, keyDerivationClosedForm t cs ht, ?_⟩
  simp [keyWord_congr hagree]

/-! ## No key byte is shifted out -/

/-- The filling speaks of KACC, K and KPOS only. -/
theorem KeyFilling.of_eq {s t : State} (h : KeyFilling s) (hkacc : t.kacc = s.kacc) (hk : t.k = s.k)
    (hkpos : t.kpos = s.kpos) : KeyFilling t := by
  unfold KeyFilling
  rwa [hkacc, hk, hkpos]

theorem keyFilling_of_closed {s : State} (h : s.kacc = false) : KeyFilling s := fun hk => by simp [h] at hk

/-- A word of `n` bytes and one more byte make a word of `n + 1` bytes. -/
theorem shiftLeft_or_toNat_lt {w : Word} {n : Nat} (hw : w.toNat < 2 ^ (8 * n)) (b : Byte) :
    (w <<< 8 ||| b.setWidth 32).toNat < 2 ^ (8 * (n + 1)) := by
  rw [BitVec.toNat_or]
  apply Nat.or_lt_two_pow
  · calc (w <<< 8).toNat
      _ ≤ w.toNat * 2 ^ 8 := by rw [BitVec.toNat_shiftLeft, Nat.shiftLeft_eq]; exact Nat.mod_le ..
      _ < 2 ^ (8 * n) * 2 ^ 8 := by omega
      _ = 2 ^ (8 * (n + 1)) := by rw [← Nat.pow_add, Nat.mul_add]
  · calc (b.setWidth 32).toNat
      _ ≤ b.toNat := by rw [BitVec.toNat_setWidth]; exact Nat.mod_le ..
      _ < 2 ^ 8 := b.isLt
      _ ≤ 2 ^ (8 * (n + 1)) := Nat.pow_le_pow_right (by decide) (by omega)

theorem accumulate_keyFilling {s : State} (h : KeyFilling s) (b : Byte) (hlt : s.kpos.toNat < 16) :
    KeyFilling (accumulate b s) := by
  intro hk i
  have hi := h hk i
  rw [accumulate_k_get b hlt, accumulate_kpos, kpos_add_one_toNat hlt]
  split
  · have hgrow : min 4 (s.kpos.toNat + 1 - 4 * i.val) = min 4 (s.kpos.toNat - 4 * i.val) + 1 := by omega
    rw [hgrow]
    exact shiftLeft_or_toNat_lt hi b
  · have hsame : min 4 (s.kpos.toNat + 1 - 4 * i.val) = min 4 (s.kpos.toNat - 4 * i.val) := by omega
    rwa [hsame]

theorem execKinit_keyFilling {s t : State} (h : execKinit s = .next t) : KeyFilling t := by
  cases h
  intro _ i
  simp [KeyFile.get_zero]

theorem raise_keyFilling {s : State} (h : KeyFilling s) (c : Code) : KeyFilling (raise c s) :=
  h.of_eq (raise_kacc c s) (raise_k c s) (raise_kpos c s)

theorem execKbyte_keyFilling {b : Byte} {s t : State} (hs : KeyFilling s) (h : execKbyte b s = .next t) :
    KeyFilling t := by
  rcases execKbyte_cases h with ⟨-, rfl⟩ | ⟨-, hlt, rfl⟩ | ⟨-, -, rfl⟩
  · exact raise_keyFilling hs .seq
  · exact accumulate_keyFilling hs b hlt
  · exact hs

theorem execKfin_keyFilling {s t : State} (hs : KeyFilling s) (h : execKfin s = .next t) : KeyFilling t := by
  rcases execKfin_cases h with ⟨-, rfl⟩ | ⟨-, rfl⟩
  · exact raise_keyFilling hs .seq
  · exact keyFilling_of_closed rfl

/-- The commands that R20 lists for KACC, K and KPOS are those of the key deriver. -/
theorem exec_keyFilling {i : Instr} {s t : State} (hs : KeyFilling s) (h : exec i s = .next t) : KeyFilling t := by
  obtain ⟨-, -, hk, -, -, -, -, hkpos, hkacc, -⟩ := onlyListedCommandsWriteARegister i s t h
  cases i with
  | kinit => exact execKinit_keyFilling h
  | kbyte b => exact execKbyte_keyFilling hs h
  | kfin => exact execKfin_keyFilling hs h
  | _ => exact hs.of_eq (by simpa using hkacc) (by simpa using hk) (by simpa using hkpos)

theorem endRun_keyFilling {s : State} (h : KeyFilling s) : KeyFilling (endRun s) := by
  rcases endRun_cases s with ⟨-, heq⟩ | ⟨-, heq⟩
  · rw [heq]; exact h
  · rw [heq]; exact h

/-- 42_cipher.md R119: a micro-step leaves the key deriver's registers as they are. -/
theorem microStep_keyFilling {s : State} (h : KeyFilling s) : KeyFilling (microStep s) := by
  rcases microStep_cases s with ⟨-, heq⟩ | ⟨-, heq⟩ | ⟨-, heq⟩
  · rw [heq]; exact h
  · rw [heq]; exact endRun_keyFilling (s := encryptRound s) h
  · rw [heq]; exact endRun_keyFilling (s := decryptRound s) h

/-- Settles O21, by the cases of a step: a reset closes the derivation; a command keeps the filling; an illegal word and a
micro-step leave the key deriver's registers as they are. -/
theorem stepKeepsKeyFilling : Obligations.StepKeepsKeyFilling := by
  intro s t hs h
  rcases step_cases h with ⟨rest, -, rfl⟩ | ⟨w, rest, i, -, -, -, hexec⟩ | ⟨w, rest, e, -, -, -, rfl⟩ | ⟨rest, rfl, -⟩
  · exact keyFilling_of_closed rfl
  · exact exec_keyFilling (s := consume rest s) hs hexec
  · exact raise_keyFilling (s := consume rest s) hs .illegal
  · exact microStep_keyFilling (s := consume rest s) hs

end Sys2Proof.Machine
end

section
/-! PROOFS. The cipher (42_cipher.md). A round of ENC or DEC is one function on SUM and V (`roundStep`), and the two functions
are inverse to each other, so their 32-fold iterates are (R118). A run of the sequencer iterates that function and counts in
RC (`microRound`), for the steps of the machine and for `finishRun` alike (R116, R117). -/

namespace Sys2Proof.Machine

open Sys2Proof

/-! ## A round on SUM and V -/

/-- What a round does to SUM and V (R112, R113). -/
def roundStep : Phase → KeyFile → Word × Block → Word × Block
  | .idle, _, r => r
  | .enc, k, r => (add32 r.1 delta, encMix k (add32 r.1 delta) r.2)
  | .dec, k, r => (sub32 r.1 delta, decMix k r.1 r.2)

@[simp] theorem decMix_encMix (k : KeyFile) (sum : Word) (v : Block) : decMix k sum (encMix k sum v) = v := by
  simp [decMix, encMix, sub32, add32]

@[simp] theorem encMix_decMix (k : KeyFile) (sum : Word) (v : Block) : encMix k sum (decMix k sum v) = v := by
  simp [decMix, encMix, sub32, add32]

/-- R113(c). -/
theorem roundStep_dec_leftInverse (k : KeyFile) : Function.LeftInverse (roundStep .dec k) (roundStep .enc k) := by
  rintro ⟨sum, v⟩
  simp [roundStep]

theorem roundStep_enc_leftInverse (k : KeyFile) : Function.LeftInverse (roundStep .enc k) (roundStep .dec k) := by
  rintro ⟨sum, v⟩
  simp [roundStep]

/-- Settles O24: the two rounds are inverse functions on SUM and V. -/
theorem roundsAreInverse : Obligations.RoundsAreInverse := by
  intro s
  obtain ⟨hsum, hv⟩ := Prod.ext_iff.mp (roundStep_dec_leftInverse s.k (s.sum, s.v))
  obtain ⟨hsum', hv'⟩ := Prod.ext_iff.mp (roundStep_enc_leftInverse s.k (s.sum, s.v))
  exact ⟨hv, hsum, hv', hsum'⟩

/-! ## The block functions and the sum schedule -/

/-- `n` rounds up the sum schedule (R120) are `n` turns of Encrypt's loop. -/
theorem roundStep_enc_iterate (k : KeyFile) (m n : Nat) (v : Block) :
    (roundStep .enc k)^[n] (BitVec.ofNat 32 m * delta, v) =
      (BitVec.ofNat 32 (m + n) * delta, encryptLoop k n (BitVec.ofNat 32 m * delta) v) := by
  induction n generalizing m v with
  | zero => rfl
  | succ n ih =>
    rw [Function.iterate_succ_apply, roundStep, encryptLoop, schedule_add_delta, ih, Nat.add_right_comm]
    rfl

/-- `n` rounds down the sum schedule (R120) are `n` turns of Decrypt's loop. -/
theorem roundStep_dec_iterate (k : KeyFile) (m n : Nat) (v : Block) :
    (roundStep .dec k)^[n] (BitVec.ofNat 32 (m + n) * delta, v) =
      (BitVec.ofNat 32 m * delta, decryptLoop k n (BitVec.ofNat 32 (m + n) * delta) v) := by
  induction n generalizing v with
  | zero => rfl
  | succ n ih =>
    rw [Function.iterate_succ_apply, roundStep, decryptLoop, ← Nat.add_assoc, schedule_sub_delta, ih]

theorem dsum0_eq_schedule : dsum0 = BitVec.ofNat 32 nrounds * delta := by decide

theorem zero_eq_schedule : 0#32 = BitVec.ofNat 32 0 * delta := by decide

/-- `n` rounds of ENC. -/
theorem roundStep_enc_run (k : KeyFile) (n : Nat) (v : Block) :
    (roundStep .enc k)^[n] (0#32, v) = (BitVec.ofNat 32 n * delta, encryptLoop k n 0#32 v) := by
  have h := roundStep_enc_iterate k 0 n v
  rwa [← zero_eq_schedule, Nat.zero_add] at h

/-- `n` rounds of DEC, at most 32. -/
theorem roundStep_dec_run (k : KeyFile) {n : Nat} (hn : n ≤ nrounds) (v : Block) :
    (roundStep .dec k)^[n] (dsum0, v) = (BitVec.ofNat 32 (nrounds - n) * delta, decryptLoop k n dsum0 v) := by
  have h := roundStep_dec_iterate k (nrounds - n) n v
  rwa [Nat.sub_add_cancel hn, ← dsum0_eq_schedule] at h

/-- All rounds of ENC: SUM ends where DEC begins. -/
theorem roundStep_enc_nrounds (k : KeyFile) (v : Block) :
    (roundStep .enc k)^[nrounds] (0#32, v) = (dsum0, encryptBlock v k) := by
  rw [roundStep_enc_run, ← dsum0_eq_schedule, encryptBlock]

/-- All rounds of DEC: SUM ends where ENC begins. -/
theorem roundStep_dec_nrounds (k : KeyFile) (v : Block) :
    (roundStep .dec k)^[nrounds] (dsum0, v) = (0#32, decryptBlock v k) := by
  rw [roundStep_dec_run k le_rfl, Nat.sub_self, ← zero_eq_schedule, decryptBlock]

/-- Settles O30: the rounds are inverse functions on SUM and V, so their 32-fold iterates are, and each block function is one
of these iterates, begun at the sum where the other ends. -/
theorem decryptInvertsEncrypt : Obligations.DecryptInvertsEncrypt := by
  intro v k
  have hdec := (roundStep_dec_leftInverse k).iterate nrounds (0#32, v)
  have henc := (roundStep_enc_leftInverse k).iterate nrounds (dsum0, v)
  rw [roundStep_enc_nrounds, roundStep_dec_nrounds] at hdec
  rw [roundStep_dec_nrounds, roundStep_enc_nrounds] at henc
  exact ⟨(Prod.mk.inj hdec).right, (Prod.mk.inj henc).right⟩

/-! ## The micro-step -/

/-- A micro-step of the phase the machine is in, up to the end of the run. -/
def microRound (s : State) : State :=
  { s with
    sum := (roundStep s.phase s.k (s.sum, s.v)).1
    v := (roundStep s.phase s.k (s.sum, s.v)).2
    rc := s.rc + 1 }

theorem microRound_of_enc {s : State} (hp : s.phase = .enc) : microRound s = encryptRound s := by
  simp only [microRound, encryptRound, roundStep, hp]

theorem microRound_of_dec {s : State} (hp : s.phase = .dec) : microRound s = decryptRound s := by
  simp only [microRound, decryptRound, roundStep, hp]

theorem microStep_of_busy {s : State} (hp : s.phase ≠ .idle) : microStep s = endRun (microRound s) := by
  rcases microStep_cases s with ⟨hidle, -⟩ | ⟨henc, heq⟩ | ⟨hdec, heq⟩
  · exact absurd hidle hp
  · rw [heq, microRound_of_enc henc]
  · rw [heq, microRound_of_dec hdec]

/-- R116 as an equation. -/
theorem endRun_eq_ite (s : State) : endRun s =
    if s.rc = 32#6 then { s with rc := 32#6, phase := .idle, resp := some 0x0000#16 } else s := by
  rcases endRun_cases s with ⟨hend, heq⟩ | ⟨hmid, heq⟩
  · rw [heq, if_pos hend, ← hend]
    rfl
  · rw [heq, if_neg hmid]

/-- Settles O22: the lines of R112 are the definition of encrypt_round, and the run ends when RC becomes 32. -/
theorem encryptRoundMicroStep : Obligations.EncryptRoundMicroStep := by
  intro s hp
  rw [microStep_of_busy (by simp [hp]), microRound_of_enc hp]
  exact endRun_eq_ite (encryptRound s)

/-- Settles O23: the lines of R113 are the definition of decrypt_round, and the run ends when RC becomes 32. -/
theorem decryptRoundMicroStep : Obligations.DecryptRoundMicroStep := by
  intro s hp
  rw [microStep_of_busy (by simp [hp]), microRound_of_dec hp]
  exact endRun_eq_ite (decryptRound s)

/-- Settles O51: an idle core does nothing; in a run a round writes V, SUM and RC, and the end of the run PHASE and the
response. -/
theorem microStepsChangeOnlyTheCipherRegisters : Obligations.MicroStepsChangeOnlyTheCipherRegisters := by
  intro s
  by_cases hp : s.phase = .idle
  · exact ⟨_, _, _, _, _, microStep_idle hp, .inl ⟨rfl, rfl⟩⟩
  · rw [microStep_of_busy hp]
    rcases endRun_cases (microRound s) with ⟨-, heq⟩ | ⟨-, heq⟩
    · exact ⟨_, _, _, _, _, heq, .inr ⟨rfl, rfl⟩⟩
    · exact ⟨_, _, _, _, _, heq, .inl ⟨rfl, rfl⟩⟩

@[simp] theorem microStep_inbox (s : State) : (microStep s).inbox = s.inbox := by
  obtain ⟨v, x, n, p, r, heq, -⟩ := microStepsChangeOnlyTheCipherRegisters s
  rw [heq]

/-! ## A step of a run -/

/-- 70_reset_and_hazards.md R204: a held command, like nothing at all, stays where it is. -/
theorem step_of_busy {s : State} (hp : s.phase ≠ .idle) (hnext : CommandsNext s.inbox) :
    step s = .next (microStep { s with resp := none }) := by
  rcases hnext with hnil | ⟨w, rest, hcmd⟩
  · rw [step_of_nil hnil, ← hnil]
    rfl
  · exact step_of_command_busy hcmd hp

/-- Settles O9: the step is the micro-step, and a micro-step does not touch what the host holds. -/
theorem stepHoldsCommandsDuringARun : Obligations.StepHoldsCommandsDuringARun := by
  intro s hp hnext
  exact ⟨_, step_of_busy hp hnext, rfl, microStep_inbox _⟩

/-! ## A run -/

/-- The rounds of a run on the registers: `roundStep` iterated on SUM and V, and the count in RC. -/
theorem microRound_iterate (n : Nat) (s : State) :
    microRound^[n] s = { s with
      sum := ((roundStep s.phase s.k)^[n] (s.sum, s.v)).1
      v := ((roundStep s.phase s.k)^[n] (s.sum, s.v)).2
      rc := s.rc + BitVec.ofNat 6 n } := by
  induction n with
  | zero => simp
  | succ n ih =>
    rw [Function.iterate_succ_apply', ih, Function.iterate_succ_apply', BitVec.ofNat_add, ← BitVec.add_assoc]
    rfl

/-- A round after which RC is not yet 32 does not end the run. -/
theorem microStep_of_mid {s : State} (hp : s.phase ≠ .idle) (hrc : s.rc.toNat + 1 < 32) : microStep s = microRound s := by
  rw [microStep_of_busy hp]
  rcases endRun_cases (microRound s) with ⟨hend, -⟩ | ⟨-, heq⟩
  · have hend' : s.rc + 1 = 32#6 := hend
    bv_omega
  · exact heq

theorem microRound_rc_toNat {s : State} (hrc : s.rc.toNat < 32) : (microRound s).rc.toNat = s.rc.toNat + 1 :=
  rc_add_one_toNat hrc

/-- R116: the micro-steps of a run are its rounds, and the run ends after the round that makes RC = 32. -/
theorem finishRun_of_busy {n : Nat} {s : State} (hp : s.phase ≠ .idle) (hlt : s.rc.toNat < 32)
    (hrc : s.rc.toNat + n ≤ 32) : finishRun n s = endRun (microRound^[n] s) := by
  induction n generalizing s with
  | zero =>
    rcases endRun_cases s with ⟨hend, -⟩ | ⟨-, heq⟩
    · simp [hend] at hlt
    · exact heq.symm
  | succ n ih =>
    rw [finishRun, if_neg hp]
    cases n with
    | zero => exact microStep_of_busy hp
    | succ n =>
      have hcount := microRound_rc_toNat hlt
      rw [microStep_of_mid hp (by omega), ih (s := microRound s) hp (by omega) (by omega),
        ← Function.iterate_succ_apply]

/-- R117, 70_reset_and_hazards.md R204: in a run no command is accepted, so the steps are the micro-steps. -/
theorem steps_of_busy {n : Nat} {s : State} (hp : s.phase ≠ .idle) (hnext : CommandsNext s.inbox) (hresp : s.resp = none)
    (hrc : s.rc.toNat + n ≤ 32) : steps n s = .next (finishRun n s) := by
  induction n generalizing s with
  | zero => rfl
  | succ n ih =>
    have hself : { s with resp := none } = s := by rw [← hresp]
    rw [steps, step_of_busy hp hnext, hself, thenDo_next, finishRun, if_neg hp]
    cases n with
    | zero => rfl
    | succ n =>
      have hcount := microRound_rc_toNat (s := s) (by omega)
      rw [microStep_of_mid hp (by omega)]
      exact ih hp hnext hresp (by omega)

/-! ## ENC and DEC -/

theorem execEnc_refused {s : State} (hk : s.kvalid = false) : execEnc s = .next (raise .seq s) := by
  simp [execEnc, hk]

theorem execEnc_starts {s : State} (hk : s.kvalid = true) : execEnc s = .next (startRun .enc 0#32 s) := by
  simp [execEnc, hk]

theorem execDec_refused {s : State} (hk : s.kvalid = false) : execDec s = .next (raise .seq s) := by
  simp [execDec, hk]

theorem execDec_starts {s : State} (hk : s.kvalid = true) : execDec s = .next (startRun .dec dsum0 s) := by
  simp [execDec, hk]

/-- Settles O25: the guard of R114 and the start of the run. -/
theorem encStartsARun : Obligations.EncStartsARun := fun _ => ⟨execEnc_refused, execEnc_starts⟩

/-- Settles O26: the guard of R115 and the start of the run. -/
theorem decStartsARun : Obligations.DecStartsARun := fun _ => ⟨execDec_refused, execDec_starts⟩

/-- The word of a command at the port of an idle core. -/
theorem step_of_encode {s : State} {i : Instr} {rest : List HostEvent} (hp : s.phase = .idle)
    (hi : s.inbox = .command (encode i) :: rest) : step s = exec i (consume rest s) :=
  stepRunsTheDecodedCommand s _ rest i hp hi (decode_encode i)

/-- A step that starts a run, and `n` micro-steps of the run. -/
theorem steps_of_startRun {s : State} {rest : List HostEvent} {p : Phase} {sum : Word} {n : Nat}
    (hstart : step s = .next (startRun p sum (consume rest s))) (hp : p ≠ .idle) (hnext : CommandsNext rest)
    (hn : n ≤ nrounds) :
    steps (n + 1) s = .next (finishRun n (startRun p sum (consume rest s))) := by
  have hrc : (startRun p sum (consume rest s)).rc.toNat + n ≤ nrounds := by simpa using hn
  rw [steps, hstart, thenDo_next]
  exact steps_of_busy hp hnext rfl hrc

/-- The registers after `n` rounds of a run that has just started. -/
theorem finishRun_startRun {p : Phase} (hp : p ≠ .idle) (sum : Word) (s : State) {n : Nat} (hn : n ≤ nrounds) :
    finishRun n (startRun p sum s) = endRun { startRun p sum s with
      sum := ((roundStep p s.k)^[n] (sum, s.v)).1
      v := ((roundStep p s.k)^[n] (sum, s.v)).2
      rc := BitVec.ofNat 6 n } := by
  have hrc : (startRun p sum s).rc.toNat + n ≤ nrounds := by simpa using hn
  rw [finishRun_of_busy hp (by simp) hrc, microRound_iterate, startRun_rc, BitVec.zero_add]
  rfl

section
variable {s : State} {rest : List HostEvent} {n : Nat} (hp : s.phase = .idle) (hk : s.kvalid = true)
  (hnext : CommandsNext rest) (hn : n ≤ nrounds)
include hp hk hnext hn

/-- The step that accepts ENC and `n` steps more. -/
theorem steps_of_enc (hi : s.inbox = .command (encode .enc) :: rest) :
    steps (n + 1) s = .next (finishRun n (startRun .enc 0#32 (consume rest s))) :=
  steps_of_startRun ((step_of_encode hp hi).trans (execEnc_starts hk)) nofun hnext hn

/-- The step that accepts DEC and `n` steps more. -/
theorem steps_of_dec (hi : s.inbox = .command (encode .dec) :: rest) :
    steps (n + 1) s = .next (finishRun n (startRun .dec dsum0 (consume rest s))) :=
  steps_of_startRun ((step_of_encode hp hi).trans (execDec_starts hk)) nofun hnext hn

end

/-- The state after `n` rounds of ENC. -/
theorem finishRun_enc (s : State) {n : Nat} (hn : n ≤ nrounds) :
    finishRun n (startRun .enc 0#32 s) = endRun { s with
      v := encryptLoop s.k n 0#32 s.v, sum := BitVec.ofNat 32 n * delta, rc := BitVec.ofNat 6 n, phase := .enc } := by
  rw [finishRun_startRun (p := .enc) nofun _ _ hn, roundStep_enc_run]
  rfl

/-- The state after `n` rounds of DEC. -/
theorem finishRun_dec (s : State) {n : Nat} (hn : n ≤ nrounds) :
    finishRun n (startRun .dec dsum0 s) = endRun { s with
      v := decryptLoop s.k n dsum0 s.v, sum := BitVec.ofNat 32 (nrounds - n) * delta, rc := BitVec.ofNat 6 n,
      phase := .dec } := by
  rw [finishRun_startRun (p := .dec) nofun _ _ hn, roundStep_dec_run s.k hn]
  rfl

/-- R114(d). -/
theorem finishRun_enc_nrounds (s : State) : finishRun nrounds (startRun .enc 0#32 s) = respond .ok 0x00#8 { s with
    v := encryptBlock s.v s.k, sum := dsum0, rc := 32#6, phase := .idle } := by
  rw [finishRun_enc s le_rfl, ← dsum0_eq_schedule]
  exact if_pos rfl

/-- R115(c). -/
theorem finishRun_dec_nrounds (s : State) : finishRun nrounds (startRun .dec dsum0 s) = respond .ok 0x00#8 { s with
    v := decryptBlock s.v s.k, sum := 0#32, rc := 32#6, phase := .idle } := by
  rw [finishRun_dec s le_rfl, Nat.sub_self, ← zero_eq_schedule]
  exact if_pos rfl

/-- Settles O27: the 32 rounds of the run compute Encrypt, and the last one ends the run. -/
theorem encCompletesInThirtyTwoMicroSteps : Obligations.EncCompletesInThirtyTwoMicroSteps := by
  intro s rest hp hk hi hnext
  refine (steps_of_enc hp hk hnext le_rfl hi).trans ?_
  rw [finishRun_enc_nrounds, hp]
  rfl

/-- Settles O28: the 32 rounds of the run compute Decrypt, and the last one ends the run. -/
theorem decCompletesInThirtyTwoMicroSteps : Obligations.DecCompletesInThirtyTwoMicroSteps := by
  intro s rest hp hk hi hnext
  refine (steps_of_dec hp hk hnext le_rfl hi).trans ?_
  rw [finishRun_dec_nrounds, hp]
  rfl

@[simp] theorem endRun_rc (s : State) : (endRun s).rc = s.rc := by
  rcases endRun_cases s with ⟨-, heq⟩ | ⟨-, heq⟩ <;> simp [heq]

@[simp] theorem endRun_sum (s : State) : (endRun s).sum = s.sum := by
  rcases endRun_cases s with ⟨-, heq⟩ | ⟨-, heq⟩ <;> simp [heq]

/-- Settles O29: the end of the run leaves RC and SUM as the rounds have made them. -/
theorem sumSchedule : Obligations.SumSchedule := by
  intro s rest r hp hk hnext hr
  refine ⟨fun hi => ⟨_, steps_of_enc hp hk hnext hr hi, ?_⟩, fun hi => ⟨_, steps_of_dec hp hk hnext hr hi, ?_⟩⟩
  · rw [finishRun_enc _ hr, endRun_rc, endRun_sum]
    exact ⟨rfl, rfl⟩
  · rw [finishRun_dec _ hr, endRun_rc, endRun_sum]
    exact ⟨rfl, rfl⟩

/-! ## A command carried to its end -/

/-- Only an ENC or DEC that has a key leaves PHASE other than it was. -/
theorem exec_phase_of_no_run {i : Instr} {s t : State} (h : exec i s = .next t)
    (hno : ¬ ((i = .enc ∨ i = .dec) ∧ s.kvalid = true)) : t.phase = s.phase := by
  obtain ⟨-, -, -, -, -, -, hphase, -⟩ := onlyListedCommandsWriteARegister i s t h
  by_contra hne
  have hi : i = .enc ∨ i = .dec := by simpa using hphase hne
  have hk : s.kvalid = false := by simpa [hi] using hno
  rcases hi with rfl | rfl
  · cases h.symm.trans (execEnc_refused hk)
    exact hne (raise_phase .seq s)
  · cases h.symm.trans (execDec_refused hk)
    exact hne (raise_phase .seq s)

theorem steps_one (s : State) : steps 1 s = step s := by
  rw [steps]
  cases step s <;> rfl

/-- A command that starts no run is complete when it has executed; a fault is the outcome of both. -/
theorem perform_of_no_run {i : Instr} {s : State} (hp : s.phase = .idle)
    (hno : ¬ ((i = .enc ∨ i = .dec) ∧ s.kvalid = true)) : perform i s = exec i { s with resp := none } := by
  cases h : exec i { s with resp := none } with
  | next t => exact perform_of_exec_idle h ((exec_phase_of_no_run h hno).trans hp)
  | fault f | refused r => rw [perform, h]; rfl

theorem perform_of_exec {i : Instr} {s t : State} (h : exec i { s with resp := none } = .next t) :
    perform i s = .next (finishRun nrounds t) := by
  rw [perform, h, thenDo_next]

/-- Settles O31: a run's 32 steps are the micro-steps of `finishRun`; every other command is over after its one step. -/
theorem stepsCarryOutACommand : Obligations.StepsCarryOutACommand := by
  intro s i rest hp hi hnext
  split
  · next hrun =>
    obtain ⟨rfl | rfl, hk⟩ := hrun
    · refine (steps_of_enc hp hk hnext le_rfl hi).trans (Eq.symm ?_)
      exact perform_of_exec (execEnc_starts (s := consume rest s) hk)
    · refine (steps_of_dec hp hk hnext le_rfl hi).trans (Eq.symm ?_)
      exact perform_of_exec (execDec_starts (s := consume rest s) hk)
  · next hno =>
    rw [steps_one, step_of_encode hp hi, perform_of_no_run (s := { s with inbox := rest }) hp hno]
    rfl

end Sys2Proof.Machine
end

section
/-! PROOFS. PAD and UNPAD (43_padding.md). Both are said once in the statements' own terms: PAD appends a valid padding
(R130), and UNPAD answers by whether the buffer has one (R131). That UNPAD undoes PAD (R132) follows from the two. -/

namespace Sys2Proof.Machine

open Sys2Proof

/-! ## The padding value -/

theorem padValue_pos (len : Nat) : 1 ≤ padValue len := by
  unfold padValue
  omega

theorem padValue_le_eight (len : Nat) : padValue len ≤ 8 := Nat.sub_le 8 (len % 8)

theorem len_add_padValue_mod_eight (len : Nat) : (len + padValue len) % 8 = 0 := by
  unfold padValue
  omega

/-- The padding value and every valid padding fit the data byte, so the answer is the number itself. -/
theorem respWord_ok_ofNat {n : Nat} (h : n < 256) : respWord .ok (BitVec.ofNat 8 n) = BitVec.ofNat 16 n := by
  rw [respWord_ok, BitVec.setWidth_ofNat_of_le_of_lt (by decide) h]

/-! ## PAD -/

theorem execPad_full {s : State} (h : s.len = s.cfg.bufCap) : execPad s = .next (raise .overflow s) := by
  rw [execPad, if_pos h]

/-- 43_padding.md R130: with room PAD completes, and BUF becomes a memory that reads as before but for the padding. -/
theorem execPad_appends {s : State} (h : s.len < s.cfg.bufCap) :
    ∃ m : Memory,
      execPad s = .next (respond .ok (BitVec.ofNat 8 (padValue s.len)) { s with buf := m, len := s.len + padValue s.len }) ∧
      ∀ a, m.get a = if s.len ≤ a ∧ a < s.len + padValue s.len
        then some (BitVec.ofNat 8 (padValue s.len)) else s.buf.get a := by
  obtain ⟨t, ht⟩ := execPad_completes h.le
  rcases execPad_cases ht with ⟨hfull, -⟩ | ⟨-, u, hu, rfl⟩
  · exact absurd hfull h.ne
  · obtain ⟨hframe, hget, -⟩ := writeBytes_spec hu
    rw [hframe] at ht
    refine ⟨u.buf, ht, fun a => ?_⟩
    rw [hget, List.length_replicate]
    split
    · next hin => rw [List.getElem?_replicate, if_pos (by omega)]
    · rfl

/-- Settles O32: the bytes are those of `execPad_appends`, and they fit because BUF_CAP is a multiple of 8. -/
theorem padAppendsPadding : Obligations.PadAppendsPadding := by
  refine ⟨rfl, fun s => ⟨execPad_full, fun hroom => ?_⟩⟩
  obtain ⟨m, ht, hget⟩ := execPad_appends hroom
  rw [respond, respWord_ok_ofNat ((padValue_le_eight s.len).trans_lt (by decide))] at ht
  exact ⟨_, ht, hget, rfl, Nat.add_pos_right _ (padValue_pos s.len), len_add_padValue_mod_eight s.len,
    len_add_padValue_le_bufCap hroom⟩

/-! ## UNPAD -/

/-- The bytes at which the loop of R131 looks all equal `p`, exactly when it ends with true. -/
theorem tailMatches_eq_true_iff (s : State) (p : Byte) (js : List Nat) :
    tailMatches s p js = .ok true ↔ ∀ j ∈ js, s.buf.get (s.len - j) = some p := by
  induction js with
  | nil => simp [tailMatches]
  | cons j js ih =>
    rw [List.forall_mem_cons, ← ih, ← memRead_eq_ok_iff, tailMatches, tailAddr]
    cases memRead s (s.len - j) with
    | error f => simp
    | ok b => by_cases hb : b = p <;> simp [hb]

/-- The test of the whole padding of `p` bytes, read as R131 says it. -/
theorem tailMatches_range_iff (s : State) (p : Byte) (n : Nat) :
    tailMatches s p (List.range' 1 n) = .ok true ↔ ∀ j, 1 ≤ j → j ≤ n → s.buf.get (s.len - j) = some p := by
  simp [tailMatches_eq_true_iff, List.mem_range'_1, Nat.lt_one_add_iff]

theorem execUnpad_of_validPadding {s : State} {p : Nat} (h : ValidPadding s p) :
    execUnpad s = .next (respond .ok (BitVec.ofNat 8 p) (shrinkTo (s.len - p) s)) := by
  obtain ⟨hpos, hle, hlen, htail⟩ := h
  have hval : (BitVec.ofNat 8 p).toNat = p := Nat.mod_eq_of_lt (by omega)
  have hzero : BitVec.ofNat 8 p ≠ 0x00#8 := by bv_omega
  have hlast : memRead s (tailAddr s 1) = .ok (BitVec.ofNat 8 p) := (memRead_eq_ok_iff ..).mpr (htail 1 le_rfl hpos)
  have hall := (tailMatches_range_iff s (BitVec.ofNat 8 p) p).mpr htail
  rw [execUnpad, if_neg (by omega), hlast]
  simp only [orFault, hval, if_neg hzero, if_neg (not_lt.mpr hle), if_neg (not_lt.mpr hlen), hall, if_true]

/-- An UNPAD that does not refuse has found a valid padding. -/
theorem execUnpad_rejects_or_validPadding {s t : State} (h : execUnpad s = .next t) :
    t = raise .padfail s ∨ ∃ p, ValidPadding s p := by
  rcases execUnpad_cases h with hfail | ⟨-, p, -, hzero, hle, hlen, hall, -⟩
  · exact .inl hfail
  · have hpos : 1 ≤ p.toNat := Nat.pos_of_ne_zero fun h0 => hzero (BitVec.eq_of_toNat_eq h0)
    refine .inr ⟨p.toNat, hpos, hle, hlen, ?_⟩
    rw [BitVec.ofNat_toNat, BitVec.setWidth_eq]
    exact (tailMatches_range_iff s p p.toNat).mp hall

/-- Settles O33: no test of UNPAD fails on a valid padding, and the bytes at and above the new LEN lose their value. -/
theorem unpadRemovesValidPadding : Obligations.UnpadRemovesValidPadding := by
  intro s p hvalid
  refine ⟨_, execUnpad_of_validPadding hvalid, Memory.get_below s.buf (s.len - p), ?_⟩
  obtain ⟨-, hle, -, -⟩ := hvalid
  rw [respond, respWord_ok_ofNat (hle.trans_lt (by decide))]
  rfl

/-- Settles O34: UNPAD completes, every byte of the valid region having a value, and only a valid padding is accepted. -/
theorem unpadRejectsInvalidPadding : Obligations.UnpadRejectsInvalidPadding := by
  intro s hbuf hnone
  obtain ⟨t, ht⟩ := execUnpad_completes hbuf
  rcases execUnpad_rejects_or_validPadding ht with rfl | ⟨p, hvalid⟩
  · exact ht
  · exact absurd hvalid (hnone p)

/-! ## UNPAD after PAD -/

/-- Dropping what was appended at the end of the valid region gives the same memory back: no byte above it had a value. -/
theorem Memory.below_eq_of_get {m m' : Memory} {n : Nat} (h : m.map Prod.fst = List.range n) (hwf : m'.wf = true)
    (hget : ∀ a < n, m'.get a = m.get a) : m'.below n = m := by
  refine Memory.ext_get (Memory.below_wf m' n hwf) (Memory.wf_of_range h) fun a => ?_
  rw [Memory.get_below]
  split
  · next hlt => exact hget a hlt
  · next hge => exact (Memory.get_of_range_ge h (not_lt.mp hge)).symm

/-- Settles O35: what PAD appends is a valid padding, and UNPAD's cut at the old LEN leaves the old memory. -/
theorem unpadUndoesPad : Obligations.UnpadUndoesPad := by
  intro s hinv hroom
  obtain ⟨hbuf, -⟩ := hinv
  obtain ⟨m, ht, hget⟩ := execPad_appends hroom
  have hback : m.below s.len = s.buf := by
    refine Memory.below_eq_of_get hbuf (execPad_buf_wf (Memory.wf_of_range hbuf) ht) fun a ha => ?_
    rw [hget, if_neg (by omega)]
  refine ⟨_, _, ht, execUnpad_of_validPadding (p := padValue s.len) ?_, ?_, rfl⟩
  · refine ⟨padValue_pos s.len, padValue_le_eight s.len, Nat.le_add_left .., fun j hj hjp => ?_⟩
    simp only [respond_buf, respond_len, hget]
    rw [if_pos (by omega)]
  · simp only [respond, shrinkTo, Nat.add_sub_cancel, hback]

end Sys2Proof.Machine
end

section
/-! PROOFS. The codec (44_codec.md): the commands on the cursors and on single bytes (R140 to R143), the packer's LDB and STB
(R144, R145), and what one of the two does after the other (R146). -/

namespace Sys2Proof.Machine

open Sys2Proof

/-! ## Packing and unpacking (20_memory.md R53) -/

/-- The four bytes of a word, put together again. -/
theorem append_extract_bytes (w : Word) :
    w.extractLsb' 24 8 ++ w.extractLsb' 16 8 ++ w.extractLsb' 8 8 ++ w.extractLsb' 0 8 = w := by
  rw [BitVec.extractLsb'_append_extractLsb'_eq_extractLsb' (by decide),
    BitVec.extractLsb'_append_extractLsb'_eq_extractLsb' (by decide),
    BitVec.extractLsb'_append_extractLsb'_eq_extractLsb' (by decide)]
  exact BitVec.extractLsb'_eq_self

/-- The four bytes a word was put together from. -/
theorem extract_bytes_append (b0 b1 b2 b3 : Byte) :
    (b0 ++ b1 ++ b2 ++ b3 : Word).extractLsb' 24 8 = b0 ∧ (b0 ++ b1 ++ b2 ++ b3 : Word).extractLsb' 16 8 = b1 ∧
    (b0 ++ b1 ++ b2 ++ b3 : Word).extractLsb' 8 8 = b2 ∧ (b0 ++ b1 ++ b2 ++ b3 : Word).extractLsb' 0 8 = b3 := by
  refine ⟨?_, ?_, ?_, BitVec.extractLsb'_append_eq_right⟩
  · rw [BitVec.extractLsb'_append_eq_of_le (by decide), BitVec.extractLsb'_append_eq_of_le (by decide)]
    exact BitVec.extractLsb'_append_eq_left
  · rw [BitVec.extractLsb'_append_eq_of_le (by decide), BitVec.extractLsb'_append_eq_of_le (by decide)]
    exact BitVec.extractLsb'_append_eq_right
  · rw [BitVec.extractLsb'_append_eq_of_le (by decide)]
    exact BitVec.extractLsb'_append_eq_right

theorem packChunk_unpackBlock (v : Block) : packChunk (unpackBlock v) = v := by
  simp only [packChunk, unpackBlock, append_extract_bytes]

theorem unpackBlock_packChunk (c : Chunk) : unpackBlock (packChunk c) = c := by
  simp only [packChunk, unpackBlock, extract_bytes_append]

/-- Byte `j` of a chunk, 0x00 where there is none. -/
def Chunk.byte (c : Chunk) (j : Nat) : Byte := c.bytes.getD j 0x00#8

theorem Chunk.getElem?_bytes (c : Chunk) {j : Nat} (hj : j < 8) : c.bytes[j]? = some (c.byte j) := by
  rw [Chunk.byte, List.getD_eq_getElem?_getD, List.getElem?_eq_getElem hj, Option.getD_some]

/-- The chunk of the bytes `b 0` to `b 7`. -/
def chunkOf (b : Nat → Byte) : Chunk := ⟨b 0, b 1, b 2, b 3, b 4, b 5, b 6, b 7⟩

theorem byte_chunkOf (b : Nat → Byte) {j : Nat} (hj : j < 8) : (chunkOf b).byte j = b j := by
  interval_cases j <;> rfl

/-! ## BCLR, BPUSH, BREW and BREAD -/

/-- Settles O36: BCLR is `shrinkTo 0`, and no address lies below 0. -/
theorem bclrEmptiesTheBuffer : Obligations.BclrEmptiesTheBuffer := by
  intro s
  exact ⟨_, rfl, fun a => (Memory.get_below s.buf 0 a).trans (if_neg (Nat.not_lt_zero a)), rfl⟩

theorem execBpush_full {s : State} (h : s.len = s.cfg.bufCap) (b : Byte) : execBpush b s = .next (raise .overflow s) := by
  rw [execBpush, if_pos h]

theorem execBpush_appends {s : State} (h : s.len < s.cfg.bufCap) (b : Byte) :
    execBpush b s = .next (respond .ok 0x00#8 { s with buf := s.buf.set s.len b, len := s.len + 1 }) := by
  obtain ⟨t, ht⟩ := execBpush_completes h.le b
  rcases execBpush_cases ht with ⟨hfull, -⟩ | ⟨-, rfl⟩
  · exact absurd hfull h.ne
  · exact ht

/-- Settles O37: the byte stands at LEN, and a write changes no other address. -/
theorem bpushAppendsAByte : Obligations.BpushAppendsAByte := by
  refine ⟨fun _ => rfl, fun b s => ⟨fun hfull => execBpush_full hfull b, fun hroom => ?_⟩⟩
  exact ⟨_, execBpush_appends hroom b, fun a => Memory.get_set s.buf s.len a b, rfl⟩

/-- Settles O38: BREW has no guard and reads no byte. -/
theorem brewRewindsBothCursors : Obligations.BrewRewindsBothCursors := ⟨rfl, fun _ => rfl⟩

theorem execBread_empty {s : State} (h : s.len ≤ s.rp) : execBread s = .next (respond .empty 0x00#8 s) := by
  rw [execBread, if_pos h]

theorem execBread_of_get {s : State} {b : Byte} (h : s.rp < s.len) (hb : s.buf.get s.rp = some b) :
    execBread s = .next (respond .ok b { s with rp := s.rp + 1 }) := by
  rw [execBread, if_neg (not_le.mpr h), seqAddr, (memRead_eq_ok_iff s s.rp b).mpr hb, orFault]

/-- Settles O39: below LEN every address has a value, so BREAD finds one at RP. -/
theorem breadReadsTheNextByte : Obligations.BreadReadsTheNextByte := by
  refine ⟨rfl, fun s => ⟨execBread_empty, fun hbuf hlt => ?_⟩⟩
  obtain ⟨b, hb⟩ := Memory.get_of_range_lt hbuf hlt
  exact ⟨b, hb, execBread_of_get hlt hb⟩

/-! ## LDB -/

/-- The bytes `b 0` to `b 7` of the chunk at BIDX, as LDB takes them (20_memory.md R54). -/
def IsChunkAtBidx (s : State) (b : Nat → Byte) : Prop :=
  ∀ j < 8, if 8 * s.bidx + j < s.len then s.buf.get (8 * s.bidx + j) = some (b j) else b j = 0x00#8

theorem execLdb_packs {s : State} {b : Nat → Byte} (h : IsChunkAtBidx s b) :
    execLdb s = .next (respond .ok (BitVec.ofNat 8 (chunkBytes s))
      { s with v := packChunk (chunkOf b) }) := by
  have hread : blockRead s s.bidx = .ok (chunkOf b) := blockRead_eq_ok s s.bidx b h
  rw [execLdb, hread, orFault]

/-- Settles O40: the eight bytes of BlockRead are the `b j`, and the number of bytes taken fits the data byte. -/
theorem ldbPacksTheChunk : Obligations.LdbPacksTheChunk := by
  refine ⟨rfl, fun s b hb => ?_⟩
  have hcount : chunkBytes s < 256 := (Nat.min_le_left 8 _).trans_lt (by decide)
  have ht := execLdb_packs (s := s) hb
  rwa [respond, respWord_ok_ofNat hcount] at ht

/-! ## STB -/

/-- 60_exceptions.md R188: SEQ is tested first. -/
theorem execStb_seq {s : State} (h : s.len < 8 * s.bidx) : execStb s = .next (raise .seq s) := by
  rw [execStb, if_pos h]

theorem execStb_overflow {s : State} (hle : 8 * s.bidx ≤ s.len) (h : s.cfg.bufCap < 8 * s.bidx + 8) :
    execStb s = .next (raise .overflow s) := by
  rw [execStb, if_neg (not_lt.mpr hle), if_pos h]

/-- 44_codec.md R145: with room STB completes, and BUF becomes a memory that reads as before but for the chunk. -/
theorem execStb_writes {s : State} (hle : 8 * s.bidx ≤ s.len) (hroom : 8 * s.bidx + 8 ≤ s.cfg.bufCap) :
    ∃ m : Memory,
      execStb s = .next (respond .ok 0x00#8
        { s with buf := m, len := max s.len (8 * s.bidx + 8), bidx := s.bidx + 1 }) ∧
      (∀ j < 8, m.get (8 * s.bidx + j) = some ((unpackBlock s.v).byte j)) ∧
      ∀ a, a < 8 * s.bidx ∨ 8 * s.bidx + 8 ≤ a → m.get a = s.buf.get a := by
  obtain ⟨t, ht⟩ := execStb_completes s
  rcases execStb_cases ht with ⟨hseq, -⟩ | ⟨-, hovf, -⟩ | ⟨-, -, u, hu, rfl⟩
  · exact absurd hseq (not_lt.mpr hle)
  · exact absurd hovf (not_lt.mpr hroom)
  · obtain ⟨hframe, hget, -⟩ := writeBytes_spec hu
    have hlength : (unpackBlock s.v).bytes.length = 8 := rfl
    rw [hlength] at hget
    rw [hframe] at ht
    refine ⟨u.buf, ht, fun j hj => ?_, fun a ha => ?_⟩
    · rw [hget, if_pos (by omega), Nat.add_sub_cancel_left, Chunk.getElem?_bytes _ hj]
    · rw [hget, if_neg (by omega)]

/-- Settles O41: the two refusals by their guards, and the eight bytes of `execStb_writes` one by one. -/
theorem stbUnpacksTheBlock : Obligations.StbUnpacksTheBlock := by
  refine ⟨rfl, fun s => ⟨execStb_seq, execStb_overflow, fun hle hroom => ?_⟩⟩
  obtain ⟨m, ht, hbyte, hother⟩ := execStb_writes hle hroom
  exact ⟨_, ht, hbyte 0 (by decide), hbyte 1 (by decide), hbyte 2 (by decide), hbyte 3 (by decide),
    hbyte 4 (by decide), hbyte 5 (by decide), hbyte 6 (by decide), hbyte 7 (by decide), hother, rfl⟩

/-! ## STB and LDB after one another (44_codec.md R146) -/

/-- Every address of the valid region has a value, so the chunk at BIDX has its eight bytes. -/
theorem exists_isChunkAtBidx {s : State} (h : BufInv s) : ∃ b, IsChunkAtBidx s b := by
  have hbyte (j : Nat) : ∃ x : Byte,
      if 8 * s.bidx + j < s.len then s.buf.get (8 * s.bidx + j) = some x else x = 0x00#8 := by
    split
    · next hlt => exact Memory.get_of_range_lt h hlt
    · exact ⟨0x00#8, rfl⟩
  choose b hb using hbyte
  exact ⟨b, fun j _ => hb j⟩

/-- Memory `m` is BUF with the bytes LDB takes written back: 0x00 from LEN to the end of the chunk, and as before elsewhere. -/
theorem get_of_chunk_written_back {s : State} {b : Nat → Byte} {m : Memory} (hb : IsChunkAtBidx s b)
    (hle : 8 * s.bidx ≤ s.len) (hbyte : ∀ j < 8, m.get (8 * s.bidx + j) = some (b j))
    (hother : ∀ a, a < 8 * s.bidx ∨ 8 * s.bidx + 8 ≤ a → m.get a = s.buf.get a) (a : Nat) :
    m.get a = if s.len ≤ a ∧ a < 8 * s.bidx + 8 then some 0x00#8 else s.buf.get a := by
  by_cases hin : 8 * s.bidx ≤ a ∧ a < 8 * s.bidx + 8
  · obtain ⟨j, rfl⟩ := Nat.exists_eq_add_of_le hin.1
    have hj : j < 8 := by omega
    have htaken := hb j hj
    rw [hbyte j hj]
    split at htaken
    · next hlt => rw [if_neg (by omega), htaken]
    · next hge => rw [if_pos (by omega), htaken]
  · rw [hother a (by omega), if_neg (by omega)]

/-- BUF_CAP is a multiple of 8 (00_scope.md R7), so a chunk that begins in the valid region fits. -/
theorem chunk_fits {s : State} (hlen : s.len ≤ s.cfg.bufCap) (hmore : 8 * s.bidx < s.len) :
    8 * s.bidx + 8 ≤ s.cfg.bufCap := by
  unfold Config.bufCap at *
  omega

/-- Settles O42: STB unpacks what LDB packed, so the bytes of the chunk are written back, 0x00 above LEN. A memory that reads
as before is the memory from before, since both are in canonical form. -/
theorem ldbThenStb : Obligations.LdbThenStb := by
  rintro s ⟨hbuf, ⟨hlen, -, -⟩, -, -⟩ hmore
  obtain ⟨b, hb⟩ := exists_isChunkAtBidx hbuf
  have hldb := execLdb_packs hb
  obtain ⟨m, hstb, hbyte, hother⟩ := execStb_writes
    (s := respond .ok (BitVec.ofNat 8 (chunkBytes s)) { s with v := packChunk (chunkOf b) }) hmore.le (chunk_fits hlen hmore)
  have hback (j : Nat) (hj : j < 8) : m.get (8 * s.bidx + j) = some (b j) := by
    rw [← byte_chunkOf b hj, ← unpackBlock_packChunk (chunkOf b)]
    exact hbyte j hj
  have hget := get_of_chunk_written_back hb hmore.le hback hother
  refine ⟨_, _, hldb, hstb, rfl, fun hfull => ⟨?_, max_eq_left hfull⟩, fun hshort => ⟨max_eq_right hshort.le, hget⟩⟩
  have hwf := Memory.wf_of_range hbuf
  refine Memory.ext_get (execStb_buf_wf ?_ hstb) hwf fun a => ?_
  · exact hwf
  · exact (hget a).trans (if_neg (by omega))

/-- Settles O43: the first chunk always fits, so STB makes it the eight bytes of V; they lie below the new LEN, and LDB packs
them again. -/
theorem stbThenLdbGivesTheBlockBack : Obligations.StbThenLdbGivesTheBlockBack := by
  intro s hbidx
  have hroom : 8 * s.bidx + 8 ≤ s.cfg.bufCap := by
    unfold Config.bufCap
    omega
  obtain ⟨m, hstb, hbyte, -⟩ := execStb_writes (by omega) hroom
  rw [hbidx] at hstb hbyte
  refine ⟨_, _, _, hstb, rfl, execLdb_packs (b := (unpackBlock s.v).byte) fun j hj => ?_, packChunk_unpackBlock s.v⟩
  have hlt : 8 * 0 + j < max s.len (8 * 0 + 8) := by omega
  exact (if_pos hlt).mpr (hbyte j hj)

end Sys2Proof.Machine
end

section
/-! PROOFS. The system commands (45_system.md): STAT answers STATUS, and CLRF clears the four sticky flags. Neither has a
guard. -/

namespace Sys2Proof.Machine

open Sys2Proof

theorem exec_stat (s : State) : exec .stat s = .next (respond .ok (status s) s) := rfl

theorem exec_clrf (s : State) : exec .clrf s = .next (respond .ok 0x00#8 (clearSticky s)) := rfl

/-- 30_encoding.md R72: the code of OK is 0, so the byte above the data is 0x00. -/
theorem respWord_ok_eq_append (d : Byte) : respWord .ok d = 0x00#8 ++ d := rfl

/-- Settles O14: the data byte is STATUS, whose bits MORE and NEMPTY compare BIDX and LEN (10_state.md R32, R33). -/
theorem statAnswersStatus : Obligations.StatAnswersStatus := by
  refine ⟨rfl, fun s => ?_⟩
  rw [exec_stat, respond, respWord_ok_eq_append, status, more, nempty]

/-- Settles O15: `clearSticky` writes the four flags alone, and OK without data is the word 0x0000. -/
theorem clrfClearsTheStickyFlags : Obligations.ClrfClearsTheStickyFlags := by
  refine ⟨rfl, fun s => ?_⟩
  have hword : respWord .ok 0x00#8 = 0x0000#16 := rfl
  rw [exec_clrf, respond, hword, clearSticky]

end Sys2Proof.Machine
end

section
/-! PROOFS. The valid region as a byte string (20_memory.md R50): what reads BUF reads the string, and what a command does to
BUF it does to the string. A string's chunks, short ones filled with 0x00, are those of `zeroFilled` (44_codec.md R144(b)). -/

namespace Sys2Proof.Machine

open Sys2Proof

/-! ## The parts of the invariant that BUF is read under -/

theorem Inv.bufInv {s : State} (h : Inv s) : BufInv s := h.1

theorem Inv.len_le_bufCap {s : State} (h : Inv s) : s.len ≤ s.cfg.bufCap := h.2.1.1

/-! ## The valid region read at an address -/

/-- A memory of consecutive addresses lists the byte of an address at the address's place. -/
theorem Memory.getElem?_map_snd {m : Memory} {k n : Nat} (h : m.map Prod.fst = List.range' k n) (a : Nat) :
    (m.map Prod.snd)[a]? = m.get (k + a) := by
  induction m generalizing k n a with
  | nil => rfl
  | cons c m ih =>
    obtain ⟨x, b⟩ := c
    obtain - | n := n
    · simp at h
    · obtain ⟨rfl, htail⟩ := List.cons_eq_cons.mp h
      cases a with
      | zero => simp [Memory.get]
      | succ a => simpa [Memory.get, Nat.add_assoc, Nat.add_comm 1] using ih htail a

theorem region_eq_map_snd {s : State} (h : BufInv s) : region s = s.buf.map Prod.snd := by
  rw [region, Memory.below_eq_of_get h (Memory.wf_of_range h) fun _ _ => rfl]

theorem getElem?_region {s : State} (h : BufInv s) (a : Nat) : (region s)[a]? = s.buf.get a := by
  rw [region_eq_map_snd h, Memory.getElem?_map_snd (h.trans List.range_eq_range'), Nat.zero_add]

theorem length_region {s : State} (h : BufInv s) : (region s).length = s.len := by
  rw [region_eq_map_snd h, List.length_map, ← List.length_map (f := Prod.fst), h, List.length_range]

/-- A state whose BUF reads as the string has it as its valid region. -/
theorem region_eq_of_get {s : State} {x : List Byte} (h : BufInv s) (hget : ∀ a, s.buf.get a = x[a]?) : region s = x :=
  List.ext_getElem? fun a => (getElem?_region h a).trans (hget a)

/-- Bytes written from LEN on, and LEN raised to their end, are appended to the valid region. -/
theorem region_of_append {s t : State} {bs : List Byte} (hs : BufInv s) (ht : BufInv t)
    (hget : ∀ a, t.buf.get a = if s.len ≤ a ∧ a < s.len + bs.length then bs[a - s.len]? else s.buf.get a) :
    region t = region s ++ bs := by
  refine region_eq_of_get ht fun a => ?_
  rw [hget, List.getElem?_append, length_region hs, getElem?_region hs]
  split_ifs with hin hlt hlt
  · omega
  · rfl
  · rfl
  · rw [Memory.get_of_range_ge hs (not_lt.mp hlt), List.getElem?_eq_none (by omega)]

theorem region_shrinkTo {s : State} {n : Nat} (hs : BufInv s) (hn : n ≤ s.len) :
    region (shrinkTo n s) = (region s).take n := by
  refine region_eq_of_get (Memory.keys_below hs hn) fun a => ?_
  rw [List.getElem?_take, getElem?_region hs]
  exact Memory.get_below s.buf n a

/-- 43_padding.md R131: the padding of a buffer is the padding of its bytes. -/
theorem validPadding_iff_endsInPadding {s : State} (hs : BufInv s) (p : Nat) :
    ValidPadding s p ↔ EndsInPadding (region s) p := by
  rw [ValidPadding, EndsInPadding, length_region hs]
  refine and_congr_right fun hpos => and_congr_right fun hle => and_congr_right fun hlen => ?_
  rw [List.ext_getElem?_iff]
  simp only [List.getElem?_drop, getElem?_region hs, List.getElem?_replicate]
  constructor
  · intro h i
    split
    · next hi => simpa [show s.len - p + i = s.len - (p - i) by omega] using h (p - i) (by omega) (by omega)
    · next hi => exact Memory.get_of_range_ge hs (by omega)
  · intro h j hj hjp
    simpa [show s.len - p + (p - j) = s.len - j by omega, show p - j < p by omega] using h (p - j)

/-! ## The chunks of a byte string -/

/-- The first chunk of a byte string, 0x00 where the string has no byte. -/
def firstChunk (x : List Byte) : Chunk := chunkOf fun j => x.getD j 0x00#8

theorem getElem?_bytes_firstChunk (x : List Byte) {j : Nat} (hj : j < 8) :
    (firstChunk x).bytes[j]? = some (x.getD j 0x00#8) := by
  rw [Chunk.getElem?_bytes _ hj, firstChunk, byte_chunkOf _ hj]

theorem getElem?_zeroFilled (x : List Byte) (a : Nat) :
    (zeroFilled x)[a]? = if a < 8 * ((x.length + 7) / 8) then some (x.getD a 0x00#8) else none := by
  rw [zeroFilled, List.getElem?_append, List.getElem?_replicate, List.getD_eq_getElem?_getD]
  split
  · next hlt => rw [if_pos (by omega), List.getElem?_eq_getElem hlt, Option.getD_some]
  · next hge => rw [List.getElem?_eq_none (not_lt.mp hge)]; exact if_congr (by omega) rfl rfl

theorem length_zeroFilled (x : List Byte) : (zeroFilled x).length = 8 * ((x.length + 7) / 8) := by
  rw [zeroFilled, List.length_append, List.length_replicate]
  omega

theorem zeroFilled_of_length_mod_eight {x : List Byte} (h : x.length % 8 = 0) : zeroFilled x = x := by
  rw [zeroFilled, show 8 * ((x.length + 7) / 8) - x.length = 0 by omega, List.replicate_zero, List.append_nil]

theorem Chunk.length_bytes (c : Chunk) : c.bytes.length = 8 := rfl

/-- The first chunk comes off, also where it is short. -/
theorem zeroFilled_eq_firstChunk_append {x : List Byte} (hx : x ≠ []) :
    zeroFilled x = (firstChunk x).bytes ++ zeroFilled (x.drop 8) := by
  have hpos := List.length_pos_iff.mpr hx
  refine List.ext_getElem? fun a => ?_
  rw [List.getElem?_append, Chunk.length_bytes, getElem?_zeroFilled, getElem?_zeroFilled]
  by_cases hlt : a < 8
  · rw [if_pos hlt, if_pos (by omega), getElem?_bytes_firstChunk x hlt]
  · rw [if_neg hlt, List.length_drop, List.getD_eq_getElem?_getD, List.getD_eq_getElem?_getD, List.getElem?_drop,
      Nat.add_sub_cancel' (not_lt.mp hlt)]
    exact if_congr (by omega) rfl rfl

/-- A byte string of whole chunks: a proof for it goes chunk by chunk. -/
theorem chunk_induction {P : List Byte → Prop} (nil : P []) (append : ∀ c bs, P bs → P (Chunk.bytes c ++ bs))
    {x : List Byte} (hx : x.length % 8 = 0) : P x := by
  obtain ⟨n, hn⟩ := Nat.dvd_of_mod_eq_zero hx
  induction n generalizing x with
  | zero => rwa [List.eq_nil_of_length_eq_zero hn]
  | succ n ih =>
    have hne : x ≠ [] := List.length_pos_iff.mp (by omega)
    have hdrop : (x.drop 8).length = 8 * n := by rw [List.length_drop]; omega
    rw [← zeroFilled_of_length_mod_eight hx, zeroFilled_eq_firstChunk_append hne,
      zeroFilled_of_length_mod_eight (by omega)]
    exact append _ _ (ih (by omega) hdrop)

/-! ## A block function on every chunk (46_pipeline.md R176) -/

theorem ecb_zeroFilled_nil (f : Block → Block) : ecb f (zeroFilled []) = [] := rfl

theorem ecb_bytes_append (f : Block → Block) (c : Chunk) (bs : List Byte) :
    ecb f (c.bytes ++ bs) = (unpackBlock (f (packChunk c))).bytes ++ ecb f bs := rfl

theorem length_ecb (f : Block → Block) {x : List Byte} (hx : x.length % 8 = 0) : (ecb f x).length = x.length := by
  refine chunk_induction (P := fun x => (ecb f x).length = x.length) rfl (fun c bs ih => ?_) hx
  rw [ecb_bytes_append, List.length_append, List.length_append, ih, Chunk.length_bytes, Chunk.length_bytes]

theorem ecb_ecb_of_leftInverse {f g : Block → Block} (hfg : Function.LeftInverse f g) {x : List Byte}
    (hx : x.length % 8 = 0) : ecb f (ecb g x) = x := by
  refine chunk_induction (P := fun x => ecb f (ecb g x) = x) rfl (fun c bs ih => ?_) hx
  rw [ecb_bytes_append, ecb_bytes_append, ih, packChunk_unpackBlock, hfg, unpackBlock_packChunk]

/-! ## The padding of a byte string (43_padding.md) -/

theorem length_padded (x : List Byte) : (padded x).length = x.length + padValue x.length := by
  rw [padded, List.length_append, List.length_replicate, padValue]

theorem endsInPadding_padded (x : List Byte) : EndsInPadding (padded x) (padValue x.length) := by
  rw [EndsInPadding, length_padded, Nat.add_sub_cancel]
  exact ⟨padValue_pos _, padValue_le_eight _, Nat.le_add_left .., List.drop_left⟩

theorem take_padded (x : List Byte) : (padded x).take ((padded x).length - padValue x.length) = x := by
  rw [length_padded, Nat.add_sub_cancel]
  exact List.take_left

/-- The last byte of a valid padding is its length. -/
theorem EndsInPadding.getLast? {y : List Byte} {p : Nat} (h : EndsInPadding y p) :
    y.getLast? = some (BitVec.ofNat 8 p) := by
  obtain ⟨hpos, -, hlen, hdrop⟩ := h
  have hlast := congrArg List.getLast? hdrop
  rwa [List.getLast?_drop, if_neg (by omega), List.getLast?_replicate, if_neg (by omega)] at hlast

theorem EndsInPadding.unique {y : List Byte} {p q : Nat} (hp : EndsInPadding y p) (hq : EndsInPadding y q) : p = q := by
  have heq := Option.some.inj (hp.getLast?.symm.trans hq.getLast?)
  obtain ⟨-, hple, -⟩ := hp
  obtain ⟨-, hqle, -⟩ := hq
  bv_omega

end Sys2Proof.Machine
end

section
/-! PROOFS. The host sequences (46_pipeline.md). Each is a walk along `ChunksDone`: loading and PAD extend the string of bytes
still to be processed, a turn of the loop moves one chunk of it over, and the loop ends when none is left (44_codec.md R147). -/

namespace Sys2Proof.Machine

open Sys2Proof

/-! ## The answers the host looks at -/

theorem answerCode_respond (c : Code) (d : Byte) (s : State) : answerCode (respond c d s) = some c.bits := by
  rw [answerCode, respond_resp, Option.map_some, respWord_code]

theorem answerData_respond (c : Code) (d : Byte) (s : State) : answerData (respond c d s) = some d := by
  rw [answerData, respond_resp, Option.map_some, respWord_data]

/-- 10_state.md R33: bit 3 of STATUS is MORE. -/
theorem getLsbD_status_three (s : State) : (status s).getLsbD 3 = more s := by
  simp only [status, BitVec.getLsbD_append]
  exact BitVec.getLsbD_ofBool (more s) 0

theorem answerMore_respond_status (s : State) : answerMore (respond .ok (status s) s) = more s := by
  rw [answerMore, answerData_respond, Option.any_some, getLsbD_status_three]

/-! ## The commands of the sequences, carried to their end

Clearing the response port first makes no difference, since each of them answers. -/

section
variable {s : State} (hp : s.phase = .idle)
include hp

theorem perform_stat : perform .stat s = .next (respond .ok (status s) s) := perform_of_exec_idle rfl hp

theorem perform_brew : perform .brew s = .next (respond .ok 0x00#8 { s with rp := 0, bidx := 0 }) :=
  perform_of_exec_idle rfl hp

theorem perform_bclr : perform .bclr s = .next (respond .ok 0x00#8 { shrinkTo 0 s with rp := 0, bidx := 0 }) :=
  perform_of_exec_idle rfl hp

theorem perform_bpush (h : s.len < s.cfg.bufCap) (b : Byte) :
    perform (.bpush b) s = .next (respond .ok 0x00#8 { s with buf := s.buf.set s.len b, len := s.len + 1 }) :=
  perform_of_exec_idle (i := .bpush b) (execBpush_appends (s := { s with resp := none }) h b) hp

theorem perform_bread_of_end (h : s.len ≤ s.rp) : perform .bread s = .next (respond .empty 0x00#8 s) :=
  perform_of_exec_idle (i := .bread) (execBread_empty (s := { s with resp := none }) h) hp

theorem perform_bread_of_get {b : Byte} (h : s.rp < s.len) (hb : s.buf.get s.rp = some b) :
    perform .bread s = .next (respond .ok b { s with rp := s.rp + 1 }) :=
  perform_of_exec_idle (i := .bread) (execBread_of_get (s := { s with resp := none }) h hb) hp

theorem perform_pad (h : s.len < s.cfg.bufCap) :
    ∃ m : Memory,
      perform .pad s =
        .next (respond .ok (BitVec.ofNat 8 (padValue s.len)) { s with buf := m, len := s.len + padValue s.len }) ∧
      ∀ a, m.get a = if s.len ≤ a ∧ a < s.len + padValue s.len
        then some (BitVec.ofNat 8 (padValue s.len)) else s.buf.get a := by
  obtain ⟨m, hexec, hget⟩ := execPad_appends (s := { s with resp := none }) h
  exact ⟨m, perform_of_exec_idle (i := .pad) hexec hp, hget⟩

theorem perform_unpad_of_validPadding {p : Nat} (h : ValidPadding s p) :
    perform .unpad s = .next (respond .ok (BitVec.ofNat 8 p) (shrinkTo (s.len - p) s)) :=
  perform_of_exec_idle (i := .unpad) (execUnpad_of_validPadding (s := { s with resp := none }) h) hp

theorem perform_unpad_of_no_validPadding (hb : BufInv s) (h : ∀ p, ¬ ValidPadding s p) :
    perform .unpad s = .next { s with paderr := true, resp := some 0x1000#16 } :=
  perform_of_exec_idle (unpadRejectsInvalidPadding { s with resp := none } hb h) hp

theorem perform_ldb {b : Nat → Byte} (h : IsChunkAtBidx s b) :
    perform .ldb s = .next (respond .ok (BitVec.ofNat 8 (chunkBytes s)) { s with v := packChunk (chunkOf b) }) :=
  perform_of_exec_idle (i := .ldb) (execLdb_packs (s := { s with resp := none }) h) hp

theorem perform_stb (hle : 8 * s.bidx ≤ s.len) (hroom : 8 * s.bidx + 8 ≤ s.cfg.bufCap) :
    ∃ m : Memory,
      perform .stb s = .next (respond .ok 0x00#8
        { s with buf := m, len := max s.len (8 * s.bidx + 8), bidx := s.bidx + 1 }) ∧
      (∀ j < 8, m.get (8 * s.bidx + j) = some ((unpackBlock s.v).byte j)) ∧
      ∀ a, a < 8 * s.bidx ∨ 8 * s.bidx + 8 ≤ a → m.get a = s.buf.get a := by
  obtain ⟨m, hexec, hget⟩ := execStb_writes (s := { s with resp := none }) hle hroom
  exact ⟨m, perform_of_exec_idle (i := .stb) hexec hp, hget⟩

/-- R114(d). -/
theorem perform_enc (hk : s.kvalid = true) : perform .enc s =
    .next (respond .ok 0x00#8 { s with v := encryptBlock s.v s.k, sum := dsum0, rc := 32#6 }) := by
  rw [perform_of_exec (i := .enc) (execEnc_starts (s := { s with resp := none }) hk), finishRun_enc_nrounds, hp]
  rfl

/-- R115(c). -/
theorem perform_dec (hk : s.kvalid = true) : perform .dec s =
    .next (respond .ok 0x00#8 { s with v := decryptBlock s.v s.k, sum := 0#32, rc := 32#6 }) := by
  rw [perform_of_exec (i := .dec) (execDec_starts (s := { s with resp := none }) hk), finishRun_dec_nrounds, hp]
  rfl

end

/-! ## Reading the result out (R172) -/

theorem readBytes_of_end {s : State} (hp : s.phase = .idle) (h : s.len ≤ s.rp) (n : Nat) : readBytes n s = [] := by
  cases n with
  | zero => rfl
  | succ n =>
    have hempty : ¬ some Code.empty.bits = some Code.ok.bits := by decide
    simp only [readBytes, perform_bread_of_end hp h, answerCode_respond, if_neg hempty]

theorem readBytes_of_get {s : State} {b : Byte} (hp : s.phase = .idle) (h : s.rp < s.len) (hb : s.buf.get s.rp = some b)
    (n : Nat) : readBytes (n + 1) s = b :: readBytes n (respond .ok b { s with rp := s.rp + 1 }) := by
  simp only [readBytes, perform_bread_of_get hp h hb, answerCode_respond, answerData_respond, if_true, Option.toList_some,
    List.singleton_append]

/-- The reads that are left give the bytes from RP on. -/
theorem readBytes_eq_drop {n : Nat} {s : State} (hb : BufInv s) (hp : s.phase = .idle) (hn : s.len ≤ s.rp + n) :
    readBytes n s = (region s).drop s.rp := by
  induction n generalizing s with
  | zero => rw [readBytes_of_end hp hn, List.drop_eq_nil_of_le (by rwa [length_region hb])]
  | succ n ih =>
    by_cases hend : s.len ≤ s.rp
    · rw [readBytes_of_end hp hend, List.drop_eq_nil_of_le (by rwa [length_region hb])]
    · obtain ⟨b, hget⟩ := Memory.get_of_range_lt hb (not_le.mp hend)
      obtain ⟨hlt, hbyte⟩ := List.getElem?_eq_some_iff.mp ((getElem?_region hb s.rp).trans hget)
      have hn' : s.len ≤ s.rp + 1 + n := by omega
      rw [readBytes_of_get hp (not_le.mp hend) hget, List.drop_eq_getElem_cons hlt, hbyte]
      exact congrArg (b :: ·) (ih hb hp hn')

/-- Settles O59: BREW sets RP to 0, and BUF_CAP + 1 reads are more than there are bytes. -/
theorem readOutIsTheValidRegion : Obligations.ReadOutIsTheValidRegion := by
  intro s hs hp
  have hlen := hs.len_le_bufCap
  have hfuel : s.len ≤ 0 + (s.cfg.bufCap + 1) := by omega
  simp only [readOut, perform_brew hp]
  exact readBytes_eq_drop (s := respond .ok 0x00#8 { s with rp := 0, bidx := 0 }) hs.bufInv hp hfuel

/-! ## Between the commands of a path -/

theorem finishRun_inv {s : State} (h : Inv s) (n : Nat) : Inv (finishRun n s) := by
  induction n generalizing s with
  | zero => exact h
  | succ n ih =>
    rw [finishRun]
    split
    · exact h
    · exact ih (microStep_inv h)

/-- R38 holds again when a command has come to its end. -/
theorem perform_inv {i : Instr} {s t : State} (hs : Inv s) (hp : s.phase = .idle) (h : perform i s = .next t) : Inv t := by
  obtain ⟨u, hexec, hrun⟩ := (thenDo_eq_next_iff _ _ _).mp h
  cases hrun
  exact finishRun_inv (exec_inv (s := { s with resp := none }) hs hp hexec) nrounds

/-- What a path that begins in `s` keeps in `t`: the core is idle between two commands, no command of a path writes the key,
and none but an UNPAD that fails writes PADERR. -/
def PathKeeps (s t : State) : Prop :=
  t.phase = .idle ∧ t.cfg = s.cfg ∧ t.k = s.k ∧ t.kvalid = s.kvalid ∧ t.paderr = s.paderr

/-- A path that begins in `s` has come to `t`, between two commands: the valid region is `ys`, the chunks before BIDX, and
`zs`, what is still to be processed. -/
structure ChunksDone (s : State) (ys zs : List Byte) (t : State) : Prop where
  inv    : Inv t
  keeps  : PathKeeps s t
  bytes  : region t = ys ++ zs
  cursor : 8 * t.bidx = ys.length

section
variable {s t : State} {ys zs : List Byte} (h : ChunksDone s ys zs t)
include h

theorem ChunksDone.idle : t.phase = .idle := h.keeps.1

theorem ChunksDone.len : t.len = ys.length + zs.length := by
  rw [← length_region h.inv.bufInv, h.bytes, List.length_append]

theorem ChunksDone.get (a : Nat) : t.buf.get a = (ys ++ zs)[a]? := by
  rw [← getElem?_region h.inv.bufInv, h.bytes]

/-- 10_state.md R32: MORE is 1 as long as there is something to be processed. -/
theorem ChunksDone.more_eq : more t = decide (zs ≠ []) := by
  rw [more, h.len, h.cursor, decide_eq_decide, ← List.length_pos_iff]
  omega

theorem ChunksDone.stat :
    ∃ u, perform .stat t = .next u ∧ ChunksDone s ys zs u ∧ answerMore u = decide (zs ≠ []) :=
  ⟨_, perform_stat h.idle, ⟨h.inv, h.keeps, h.bytes, h.cursor⟩, (answerMore_respond_status t).trans h.more_eq⟩

end

/-! ## Loading the input, and PAD -/

section
variable {s t : State} {x : List Byte}

theorem ChunksDone.bclr (hs : Inv s) (hp : s.phase = .idle) :
    ∃ t, perform .bclr s = .next t ∧ ChunksDone s [] [] t := by
  have hrun := perform_bclr hp
  refine ⟨_, hrun, perform_inv hs hp hrun, ⟨hp, rfl, rfl, rfl, rfl⟩, ?_, rfl⟩
  exact (region_shrinkTo hs.bufInv (Nat.zero_le s.len)).trans List.take_zero

/-- There is room as long as the input is not at its end. -/
theorem ChunksDone.room (h : ChunksDone s [] x t) (hx : x.length < s.cfg.bufCap) : t.len < t.cfg.bufCap := by
  obtain ⟨-, hcfg, -⟩ := h.keeps
  rwa [h.len, hcfg, List.length_nil, Nat.zero_add]

/-- A command that writes `bs` at the end of the valid region leaves more to be processed. -/
theorem ChunksDone.append {u : State} {bs : List Byte} (h : ChunksDone s [] x t) (hinv : Inv u) (hkeeps : PathKeeps s u)
    (hbidx : u.bidx = t.bidx)
    (hget : ∀ a, u.buf.get a = if t.len ≤ a ∧ a < t.len + bs.length then bs[a - t.len]? else t.buf.get a) :
    ChunksDone s [] (x ++ bs) u where
  inv := hinv
  keeps := hkeeps
  bytes := (region_of_append h.inv.bufInv hinv.bufInv hget).trans (congrArg (· ++ bs) h.bytes)
  cursor := hbidx ▸ h.cursor

theorem ChunksDone.bpush (h : ChunksDone s [] x t) (hx : x.length < s.cfg.bufCap) (b : Byte) :
    ∃ u, perform (.bpush b) t = .next u ∧ ChunksDone s [] (x ++ [b]) u := by
  have hrun := perform_bpush h.idle (h.room hx) b
  refine ⟨_, hrun, h.append (perform_inv h.inv h.idle hrun) h.keeps rfl fun a => ?_⟩
  refine (Memory.get_set t.buf t.len a b).trans ?_
  by_cases ha : a = t.len
  · simp [ha]
  · rw [if_neg ha, if_neg (by rw [List.length_singleton]; omega)]

theorem ChunksDone.load (hs : Inv s) (hp : s.phase = .idle) (hx : x.length ≤ s.cfg.bufCap) :
    ∃ t, performAll ([.bclr] ++ pushBytes x) s = .next t ∧ ChunksDone s [] x t := by
  induction x using List.reverseRecOn with
  | nil => exact (ChunksDone.bclr hs hp).imp fun t ht => ⟨(performAll_singleton .bclr s).trans ht.1, ht.2⟩
  | append_singleton x b ih =>
    rw [List.length_append, List.length_singleton] at hx
    obtain ⟨t, hload, ht⟩ := ih (by omega)
    obtain ⟨u, hpush, hu⟩ := ht.bpush hx b
    refine ⟨u, ?_, hu⟩
    rw [pushBytes, List.map_append, ← pushBytes, ← List.append_assoc, performAll_append, hload, thenDo_next,
      List.map_singleton, performAll_singleton, hpush]

theorem ChunksDone.pad (h : ChunksDone s [] x t) (hx : x.length < s.cfg.bufCap) :
    ∃ u, perform .pad t = .next u ∧ ChunksDone s [] (padded x) u := by
  have hlen : x.length = t.len := by rw [h.len, List.length_nil, Nat.zero_add]
  obtain ⟨m, hrun, hget⟩ := perform_pad h.idle (h.room hx)
  rw [padded, hlen]
  refine ⟨_, hrun, h.append (perform_inv h.inv h.idle hrun) h.keeps rfl fun a => (hget a).trans ?_⟩
  rw [List.length_replicate]
  refine if_ctx_congr Iff.rfl (fun hin => ?_) fun _ => rfl
  rw [List.getElem?_replicate, if_pos (by omega), padValue]

end

/-! ## The chunk loop -/

/-- Command `i`, carried to its end on an idle core with a key, is the block function `f` on V and K. -/
def Ciphers (i : Instr) (f : Block → KeyFile → Block) : Prop :=
  ∀ s : State, s.phase = .idle → s.kvalid = true →
    ∃ sum, perform i s = .next (respond .ok 0x00#8 { s with v := f s.v s.k, sum := sum, rc := 32#6 })

theorem ciphers_enc : Ciphers .enc encryptBlock := fun _ hp hk => ⟨_, perform_enc hp hk⟩

theorem ciphers_dec : Ciphers .dec decryptBlock := fun _ hp hk => ⟨_, perform_dec hp hk⟩

section
variable {i : Instr} {f : Block → KeyFile → Block} {s t : State} {ys zs : List Byte} (hf : Ciphers i f)
  (hk : s.kvalid = true)

/-- LDB takes the first chunk of what is still to be processed. -/
theorem ChunksDone.isChunkAtBidx (h : ChunksDone s ys zs t) : IsChunkAtBidx t fun j => zs.getD j 0x00#8 := by
  intro j _
  rw [h.get, h.cursor, h.len, List.getElem?_append_right (Nat.le_add_right _ _), Nat.add_sub_cancel_left]
  simp only [List.getD_eq_getElem?_getD]
  split
  · next hlt => rw [List.getElem?_eq_getElem (by omega), Option.getD_some]
  · next hge => rw [List.getElem?_eq_none (by omega), Option.getD_none]

theorem ChunksDone.ldb (h : ChunksDone s ys zs t) :
    ∃ u, perform .ldb t = .next u ∧ ChunksDone s ys zs u ∧ u.v = packChunk (firstChunk zs) :=
  ⟨_, perform_ldb h.idle h.isChunkAtBidx, ⟨h.inv, h.keeps, h.bytes, h.cursor⟩, rfl⟩

/-- STB puts the eight bytes of V in the place of the first chunk of what is still to be processed. -/
theorem ChunksDone.stb (h : ChunksDone s ys zs t) (hzs : zs ≠ []) :
    ∃ u, perform .stb t = .next u ∧ ChunksDone s (ys ++ (unpackBlock t.v).bytes) (zs.drop 8) u := by
  have hpos := List.length_pos_iff.mpr hzs
  have hcursor := h.cursor
  have hlen := h.len
  obtain ⟨m, hrun, hbyte, hother⟩ := perform_stb h.idle (by omega) (chunk_fits h.inv.len_le_bufCap (by omega))
  have hinv := perform_inv h.inv h.idle hrun
  rw [hcursor] at hbyte hother
  refine ⟨_, hrun, hinv, h.keeps, region_eq_of_get hinv.bufInv fun a => ?_, ?_⟩
  · change m.get a = _
    rw [List.append_assoc, List.getElem?_append, List.getElem?_append, Chunk.length_bytes]
    split_ifs with hbefore hin
    · rw [hother a (.inl hbefore), h.get, List.getElem?_append_left hbefore]
    · rw [Chunk.getElem?_bytes _ hin, ← hbyte _ hin, Nat.add_sub_cancel' (not_lt.mp hbefore)]
    · rw [hother a (.inr (by omega)), h.get, List.getElem?_append_right (not_lt.mp hbefore), List.getElem?_drop,
        Nat.add_sub_cancel' (not_lt.mp hin)]
  · rw [List.length_append, Chunk.length_bytes, ← hcursor]
    rfl

include hf hk

theorem ChunksDone.cipher (h : ChunksDone s ys zs t) :
    ∃ u, perform i t = .next u ∧ ChunksDone s ys zs u ∧ u.v = f t.v s.k := by
  obtain ⟨hidle, -, hkey, hkvalid, -⟩ := h.keeps
  obtain ⟨sum, hrun⟩ := hf t hidle (hkvalid.trans hk)
  exact ⟨_, hrun, ⟨perform_inv h.inv hidle hrun, h.keeps, h.bytes, h.cursor⟩, congrArg (f t.v) hkey⟩

/-- One turn: the chunk at BIDX, filled with 0x00 if it is short, becomes its block under `f`. -/
theorem ChunksDone.turn (h : ChunksDone s ys zs t) (hzs : zs ≠ []) :
    ∃ u, performAll [.ldb, i, .stb] t = .next u ∧
      ChunksDone s (ys ++ (unpackBlock (f (packChunk (firstChunk zs)) s.k)).bytes) (zs.drop 8) u := by
  obtain ⟨t₁, hldb, h₁, hv₁⟩ := h.ldb
  obtain ⟨t₂, hcipher, h₂, hv₂⟩ := h₁.cipher hf hk
  obtain ⟨t₃, hstb, h₃⟩ := h₂.stb hzs
  rw [hv₂, hv₁] at h₃
  refine ⟨t₃, ?_, h₃⟩
  simp only [performAll, hldb, hcipher, hstb, thenDo_next]

/-- All turns, `n` being enough of them. -/
theorem ChunksDone.loop {n : Nat} (h : ChunksDone s ys zs t) (hn : zs.length ≤ 8 * n) :
    ∃ u, whileMore n [.ldb, i, .stb] t = .next u ∧
      ChunksDone s (ys ++ ecb (fun v => f v s.k) (zeroFilled zs)) [] u := by
  induction n generalizing ys zs t with
  | zero =>
    obtain rfl := List.eq_nil_of_length_eq_zero (Nat.le_zero.mp hn)
    exact ⟨t, rfl, by rwa [ecb_zeroFilled_nil, List.append_nil]⟩
  | succ n ih =>
    obtain ⟨u, hstat, hu, hmore⟩ := h.stat
    rw [whileMore, hstat, thenDo_next, hmore]
    by_cases hzs : zs = []
    · subst hzs
      exact ⟨u, rfl, by rwa [ecb_zeroFilled_nil, List.append_nil]⟩
    · obtain ⟨w, hturn, hw⟩ := hu.turn hf hk hzs
      obtain ⟨r, hloop, hr⟩ := ih hw (by rw [List.length_drop]; omega)
      refine ⟨r, ?_, ?_⟩
      · rw [if_pos (decide_eq_true hzs), hturn, thenDo_next, hloop]
      · rwa [zeroFilled_eq_firstChunk_append hzs, ecb_bytes_append, ← List.append_assoc]

end

/-! ## The encrypt path (R171) -/

/-- `loopFuel` is more than the number of chunks of BUF (44_codec.md R147). -/
theorem ChunksDone.length_le_loopFuel {s t : State} {zs : List Byte} (h : ChunksDone s [] zs t) :
    zs.length ≤ 8 * loopFuel s := by
  obtain ⟨-, hcfg, -⟩ := h.keeps
  have hlen := h.len
  have hcap := h.inv.len_le_bufCap
  rw [hcfg] at hcap
  rw [List.length_nil] at hlen
  rw [loopFuel]
  omega

/-- Nothing is made of nothing (R174), and any other input is padded. -/
theorem ChunksDone.padInput {s t : State} {x : List Byte} (h : ChunksDone s [] x t) (hx : x.length < s.cfg.bufCap) :
    ∃ u, performAll (if x.length = 0 then [] else [.pad]) t = .next u ∧
      ChunksDone s [] (if x = [] then [] else padded x) u := by
  simp only [List.length_eq_zero_iff]
  split
  · next hnil => exact ⟨t, rfl, hnil ▸ h⟩
  · obtain ⟨u, hpad, hu⟩ := h.pad hx
    exact ⟨u, (performAll_singleton .pad t).trans hpad, hu⟩

theorem length_padInput_mod_eight (x : List Byte) : (if x = [] then [] else padded x).length % 8 = 0 := by
  split
  · rfl
  · rw [length_padded, len_add_padValue_mod_eight]

/-- Settles O57: the loop processes a string of whole chunks, and nothing is left when it ends. -/
theorem encryptPathEncryptsEveryChunk : Obligations.EncryptPathEncryptsEveryChunk := by
  intro s x hs hp hk hx
  obtain ⟨t, hload, ht⟩ := ChunksDone.load hs hp hx.le
  obtain ⟨u, hpad, hu⟩ := ht.padInput hx
  obtain ⟨w, hloop, hw⟩ := hu.loop ciphers_enc hk hu.length_le_loopFuel
  obtain ⟨hidle, -, hkey, hkvalid, -⟩ := hw.keeps
  refine ⟨w, ?_, ?_, hkey, hkvalid.trans hk, hidle, hw.more_eq, hw.inv⟩
  · rw [encryptPath, performAll_append, hload, thenDo_next, hpad, thenDo_next, encBlk, hloop]
  · rw [hw.bytes, zeroFilled_of_length_mod_eight (length_padInput_mod_eight x), List.nil_append, List.append_nil]
    exact apply_ite (ecb fun v => encryptBlock v s.k) (x = []) [] (padded x)

/-! ## The decrypt path (R173) -/

/-- The decrypt path up to its UNPAD. -/
theorem decryptPath_eq {s : State} {x : List Byte} (hs : Inv s) (hp : s.phase = .idle) (hk : s.kvalid = true)
    (hx : x.length ≤ s.cfg.bufCap) :
    ∃ t, decryptPath x s = performAll (if x.length = 0 then [] else [.unpad]) t ∧
      ChunksDone s (ecb (fun v => decryptBlock v s.k) (zeroFilled x)) [] t := by
  obtain ⟨t, hload, ht⟩ := ChunksDone.load hs hp hx
  obtain ⟨u, hloop, hu⟩ := ht.loop ciphers_dec hk ht.length_le_loopFuel
  exact ⟨u, by rw [decryptPath, hload, thenDo_next, decBlk, hloop, thenDo_next], hu⟩

section
variable {s t : State} {ys : List Byte} (h : ChunksDone s ys [] t)
include h

theorem ChunksDone.region_eq : region t = ys := h.bytes.trans (List.append_nil ys)

theorem ChunksDone.validPadding_iff (p : Nat) : ValidPadding t p ↔ EndsInPadding ys p := by
  rw [validPadding_iff_endsInPadding h.inv.bufInv, h.region_eq]

theorem ChunksDone.unpad {p : Nat} (hpad : EndsInPadding ys p) :
    ∃ u, perform .unpad t = .next u ∧ Inv u ∧ PathKeeps s u ∧ region u = ys.take (ys.length - p) ∧
      u.resp = some (BitVec.ofNat 16 p) := by
  have hle : p ≤ 8 := hpad.2.1
  have hrun := perform_unpad_of_validPadding h.idle ((h.validPadding_iff p).mpr hpad)
  refine ⟨_, hrun, perform_inv h.inv h.idle hrun, h.keeps, ?_, congrArg some (respWord_ok_ofNat (by omega))⟩
  refine (region_shrinkTo h.inv.bufInv (Nat.sub_le t.len p)).trans ?_
  rw [h.region_eq, h.len, List.length_nil, Nat.add_zero]

theorem ChunksDone.unpad_fails (hpad : ∀ p, ¬ EndsInPadding ys p) :
    ∃ u, perform .unpad t = .next u ∧ Inv u ∧ u.phase = .idle ∧ u.k = s.k ∧ region u = ys ∧
      u.resp = some 0x1000#16 ∧ u.paderr = true := by
  obtain ⟨hidle, -, hkey, -⟩ := h.keeps
  have hrun := perform_unpad_of_no_validPadding hidle h.inv.bufInv fun p hp => hpad p ((h.validPadding_iff p).mp hp)
  exact ⟨_, hrun, perform_inv h.inv hidle hrun, hidle, hkey, h.region_eq, rfl, rfl⟩

end

/-- Settles O58: an empty input leaves nothing to be done after the loop, and else UNPAD answers by whether the decrypted
bytes end in a padding. -/
theorem decryptPathDecryptsEveryChunk : Obligations.DecryptPathDecryptsEveryChunk := by
  intro s x hs hp hk hfits y
  obtain ⟨t, hrun, ht⟩ := decryptPath_eq hs hp hk (by omega : x.length ≤ s.cfg.bufCap)
  rw [hrun]
  by_cases hx : x = []
  · subst hx
    obtain ⟨hidle, -, hkey, -, hpaderr⟩ := ht.keeps
    exact ⟨t, rfl, hkey, hidle, ht.inv, fun _ => ⟨ht.region_eq, hpaderr⟩, fun _ h => absurd rfl h,
      fun h => absurd rfl h⟩
  · rw [if_neg (mt List.length_eq_zero_iff.mp hx), performAll_singleton]
    by_cases hpad : ∃ p, EndsInPadding y p
    · obtain ⟨p, hpad⟩ := hpad
      obtain ⟨u, hunpad, hinv, ⟨hidle, -, hkey, -, hpaderr⟩, hregion, hresp⟩ := ht.unpad hpad
      refine ⟨u, hunpad, hkey, hidle, hinv, fun h => absurd h hx, fun q _ hq => ?_, fun _ h => absurd hpad (h p)⟩
      obtain rfl := hpad.unique hq
      exact ⟨hregion, hresp, hpaderr⟩
    · have hnone : ∀ p, ¬ EndsInPadding y p := not_exists.mp hpad
      obtain ⟨u, hunpad, hinv, hidle, hkey, hfail⟩ := ht.unpad_fails hnone
      exact ⟨u, hunpad, hkey, hidle, hinv, fun h => absurd h hx, fun q _ hq => absurd hq (hnone q), fun _ _ => hfail⟩

/-! ## The round trip (R175) -/

/-- Decrypting the encrypted chunks of a string gives the string. -/
theorem ecb_decrypt_zeroFilled_ecb_encrypt (k : KeyFile) {x : List Byte} (hx : x.length % 8 = 0) :
    ecb (fun v => decryptBlock v k) (zeroFilled (ecb (fun v => encryptBlock v k) x)) = x := by
  rw [zeroFilled_of_length_mod_eight ((length_ecb _ hx).symm ▸ hx)]
  exact ecb_ecb_of_leftInverse (fun v => (decryptInvertsEncrypt v k).1) hx

/-- Settles O60: the result of the encrypt path is a string of whole chunks, which decrypt to the padded input. -/
theorem wholeBufferRoundTrip : Obligations.WholeBufferRoundTrip := by
  intro s x hs hp hk hx
  obtain ⟨t, henc, hregion, hkey, hkvalid, hidle, -, hinv⟩ := encryptPathEncryptsEveryChunk s x hs hp hk hx
  have hfits : 8 * (((region t).length + 7) / 8) ≤ t.cfg.bufCap := by
    have hlen := hinv.len_le_bufCap
    rw [length_region hinv.bufInv]
    unfold Config.bufCap at *
    omega
  obtain ⟨u, hdec, hkey', -, -, hnil, hpadded, -⟩ := decryptPathDecryptsEveryChunk t (region t) hinv hidle hkvalid hfits
  refine ⟨t, u, henc, hdec, ?_⟩
  by_cases hempty : x = []
  · subst hempty
    exact ⟨(hnil hregion).1, hkey'.trans hkey, fun h => absurd rfl h⟩
  · rw [if_neg hempty] at hregion
    have hmod : (padded x).length % 8 = 0 := by rw [length_padded, len_add_padValue_mod_eight]
    have hne : region t ≠ [] := by
      refine List.length_pos_iff.mp ?_
      rw [hregion, length_ecb _ hmod, length_padded]
      exact Nat.add_pos_right _ (padValue_pos x.length)
    rw [hregion, hkey, ecb_decrypt_zeroFilled_ecb_encrypt s.k hmod] at hpadded
    obtain ⟨hout, hresp, -⟩ := hpadded (padValue x.length) (hregion ▸ hne) (endsInPadding_padded x)
    exact ⟨hout.trans (take_padded x), hkey'.trans hkey, fun _ => hresp⟩

end Sys2Proof.Machine
end

section
/-! PROOFS. Errors (60_exceptions.md): the code every command reports, exactly when it is SEQ (R184) or OVERFLOW (R185), and
that a failed command changes only the sticky flag of its code (R181). An idle core waits (R194). -/

namespace Sys2Proof.Machine

open Sys2Proof

/-! ## When SEQ and OVERFLOW apply -/

/-- 60_exceptions.md R184: the cases of SEQ. -/
def SeqApplies (i : Instr) (s : State) : Prop :=
  (((∃ b, i = .kbyte b) ∨ i = .kfin) ∧ s.kacc = false) ∨ ((i = .enc ∨ i = .dec) ∧ s.kvalid = false) ∨
    (i = .stb ∧ s.len < 8 * s.bidx)

/-- 60_exceptions.md R185: the cases of OVERFLOW; of STB's, those that R188 leaves to it. -/
def OverflowApplies (i : Instr) (s : State) : Prop :=
  (((∃ b, i = .bpush b) ∨ i = .pad) ∧ s.len = s.cfg.bufCap) ∨
    (i = .stb ∧ 8 * s.bidx ≤ s.len ∧ s.cfg.bufCap < 8 * s.bidx + 8)

/-- Only STB can meet both errors, and there R188 puts SEQ first. -/
theorem OverflowApplies.not_seqApplies {i : Instr} {s : State} (h : OverflowApplies i s) : ¬ SeqApplies i s := by
  rcases h with ⟨⟨b, rfl⟩ | rfl, -⟩ | ⟨rfl, hle, -⟩
  · simp [SeqApplies]
  · simp [SeqApplies]
  · simpa [SeqApplies] using hle

/-! ## The code a command reports -/

/-- Command `i`, which leads from `s` to `t`, reports code `c`: SEQ and OVERFLOW where they apply, and any code but OK by
raising it. With OK the response is on the port, or a run has started and the port is as it was (log 4). -/
structure Reports (i : Instr) (s t : State) (c : Code) : Prop where
  seq_iff      : c = .seq ↔ SeqApplies i s
  overflow_iff : c = .overflow ↔ OverflowApplies i s
  raised       : c ≠ .ok → t = raise c s
  answered     : c = .ok → t.resp = s.resp ∨ ∃ d, t.resp = some (respWord .ok d)

theorem reports_seq {i : Instr} {s : State} (h : SeqApplies i s) : Reports i s (raise .seq s) .seq :=
  ⟨iff_of_true rfl h, iff_of_false nofun fun ho => ho.not_seqApplies h, fun _ => rfl, nofun⟩

theorem reports_overflow {i : Instr} {s : State} (h : OverflowApplies i s) : Reports i s (raise .overflow s) .overflow :=
  ⟨iff_of_false nofun h.not_seqApplies, iff_of_true rfl h, fun _ => rfl, nofun⟩

theorem reports_ok {i : Instr} {s t : State} (hseq : ¬ SeqApplies i s) (hoverflow : ¬ OverflowApplies i s)
    (h : t.resp = s.resp ∨ ∃ d, t.resp = some (respWord .ok d)) : Reports i s t .ok :=
  ⟨iff_of_false nofun hseq, iff_of_false nofun hoverflow, fun hc => absurd rfl hc, fun _ => h⟩

/-- Every command reports one code; the cases are the guards of the command's rule. -/
theorem exec_reports {i : Instr} {s t : State} (h : exec i s = .next t) : ∃ c, Reports i s t c := by
  cases i with
  | stat | clrf | kinit | bclr | brew =>
    cases h
    exact ⟨.ok, reports_ok (by simp [SeqApplies]) (by simp [OverflowApplies]) (.inr ⟨_, rfl⟩)⟩
  | kbyte b =>
    rcases execKbyte_cases h with ⟨hk, rfl⟩ | ⟨hk, -, rfl⟩ | ⟨hk, -, rfl⟩
    · exact ⟨.seq, reports_seq (.inl ⟨.inl ⟨b, rfl⟩, hk⟩)⟩
    · exact ⟨.ok, reports_ok (by simp [SeqApplies, hk]) (by simp [OverflowApplies]) (.inr ⟨_, rfl⟩)⟩
    · exact ⟨.ok, reports_ok (by simp [SeqApplies, hk]) (by simp [OverflowApplies]) (.inr ⟨_, rfl⟩)⟩
  | kfin =>
    rcases execKfin_cases h with ⟨hk, rfl⟩ | ⟨hk, rfl⟩
    · exact ⟨.seq, reports_seq (.inl ⟨.inr rfl, hk⟩)⟩
    · exact ⟨.ok, reports_ok (by simp [SeqApplies, hk]) (by simp [OverflowApplies]) (.inr ⟨_, rfl⟩)⟩
  | bpush b =>
    rcases execBpush_cases h with ⟨hl, rfl⟩ | ⟨hl, rfl⟩
    · exact ⟨.overflow, reports_overflow (.inl ⟨.inl ⟨b, rfl⟩, hl⟩)⟩
    · exact ⟨.ok, reports_ok (by simp [SeqApplies]) (by simp [OverflowApplies, hl.ne]) (.inr ⟨_, rfl⟩)⟩
  | pad =>
    rcases execPad_cases h with ⟨hl, rfl⟩ | ⟨hl, u, -, rfl⟩
    · exact ⟨.overflow, reports_overflow (.inl ⟨.inr rfl, hl⟩)⟩
    · exact ⟨.ok, reports_ok (by simp [SeqApplies]) (by simp [OverflowApplies, hl]) (.inr ⟨_, rfl⟩)⟩
  | bread =>
    rcases execBread_cases h with ⟨-, rfl⟩ | ⟨-, b, -, rfl⟩
    · exact ⟨.empty, by simp [SeqApplies], by simp [OverflowApplies], fun _ => rfl, nofun⟩
    · exact ⟨.ok, reports_ok (by simp [SeqApplies]) (by simp [OverflowApplies]) (.inr ⟨_, rfl⟩)⟩
  | unpad =>
    rcases execUnpad_cases h with rfl | ⟨-, p, -, -, -, -, -, rfl⟩
    · exact ⟨.padfail, by simp [SeqApplies], by simp [OverflowApplies], fun _ => rfl, nofun⟩
    · exact ⟨.ok, reports_ok (by simp [SeqApplies]) (by simp [OverflowApplies]) (.inr ⟨_, rfl⟩)⟩
  | ldb =>
    obtain ⟨c, -, rfl⟩ := execLdb_cases h
    exact ⟨.ok, reports_ok (by simp [SeqApplies]) (by simp [OverflowApplies]) (.inr ⟨_, rfl⟩)⟩
  | stb =>
    rcases execStb_cases h with ⟨hl, rfl⟩ | ⟨hle, hc, rfl⟩ | ⟨hle, hc, u, -, rfl⟩
    · exact ⟨.seq, reports_seq (.inr (.inr ⟨rfl, hl⟩))⟩
    · exact ⟨.overflow, reports_overflow (.inr ⟨rfl, hle, hc⟩)⟩
    · exact ⟨.ok, reports_ok (by simp [SeqApplies, hle]) (by simp [OverflowApplies, hc]) (.inr ⟨_, rfl⟩)⟩
  | enc =>
    rcases execEnc_cases h with ⟨hk, rfl⟩ | ⟨hk, rfl⟩
    · exact ⟨.seq, reports_seq (.inr (.inl ⟨.inl rfl, hk⟩))⟩
    · exact ⟨.ok, reports_ok (by simp [SeqApplies, hk]) (by simp [OverflowApplies]) (.inl rfl)⟩
  | dec =>
    rcases execDec_cases h with ⟨hk, rfl⟩ | ⟨hk, rfl⟩
    · exact ⟨.seq, reports_seq (.inr (.inl ⟨.inr rfl, hk⟩))⟩
    · exact ⟨.ok, reports_ok (by simp [SeqApplies, hk]) (by simp [OverflowApplies]) (.inl rfl)⟩

/-! ## The response word tells the code -/

section
variable {i : Instr} {s t : State} {c : Code} (h : Reports i s t c) (hnone : s.resp = none)
include h hnone

theorem Reports.code_of_resp {r : RespWord} (hr : t.resp = some r) : r.extractLsb' 12 4 = c.bits := by
  by_cases hok : c = .ok
  · rcases h.answered hok with hresp | ⟨d, hresp⟩
    · simp [hr, hnone] at hresp
    · cases hr.symm.trans hresp
      rw [respWord_code, hok]
  · rw [h.raised hok] at hr
    cases hr
    exact respWord_code c 0x00#8

theorem Reports.resp_eq_iff {c' : Code} (hc' : c' ≠ .ok) : t.resp = some (respWord c' 0x00#8) ↔ c = c' := by
  constructor
  · intro hr
    rw [← Code.bits_inj, ← h.code_of_resp hnone hr, respWord_code]
  · rintro rfl
    rw [h.raised hc', raise_resp]

end

/-- Settles O45: 0x5000 is the response of SEQ. -/
theorem seqIsRaisedExactlyHere : Obligations.SeqIsRaisedExactlyHere := by
  intro i s t hnone h
  obtain ⟨c, hc⟩ := exec_reports h
  exact (hc.resp_eq_iff hnone (c' := .seq) nofun).trans hc.seq_iff

/-- Settles O46: 0x2000 is the response of OVERFLOW. -/
theorem overflowIsRaisedExactlyHere : Obligations.OverflowIsRaisedExactlyHere := by
  intro i s t hnone h
  obtain ⟨c, hc⟩ := exec_reports h
  exact (hc.resp_eq_iff hnone (c' := .overflow) nofun).trans hc.overflow_iff

/-! ## What raising a code changes -/

/-- 60_exceptions.md R181, R182: each flag is told by the word of its code. -/
theorem raise_eq_of_respWord (c : Code) (s : State) {r : RespWord} (hr : r = respWord c 0x00#8) : raise c s = { s with
    paderr := s.paderr || decide (r = 0x1000#16), ovf := s.ovf || decide (r = 0x2000#16),
    ill := s.ill || decide (r = 0x3000#16), seqerr := s.seqerr || decide (r = 0x5000#16), resp := some r } := by
  subst hr
  cases c <;> simp [raise, respond, setSticky, respWord, Code.bits]

theorem respWord_mem_of_ne_ok {c : Code} (hc : c ≠ .ok) :
    respWord c 0x00#8 ∈ [0x1000#16, 0x2000#16, 0x3000#16, 0x4000#16, 0x5000#16] := by
  cases c with
  | ok => exact absurd rfl hc
  | padfail | overflow | illegal | empty | seq => decide

/-- Settles O44: an answer with another code than OK was raised, and raising changes only the flag and the port. -/
theorem aFailedCommandChangesOnlyItsFlag : Obligations.AFailedCommandChangesOnlyItsFlag := by
  intro i s t r hnone h hr hcode
  obtain ⟨c, hc⟩ := exec_reports h
  have hok : c ≠ .ok := by
    rintro rfl
    exact hcode (hc.code_of_resp hnone hr)
  obtain rfl := hc.raised hok
  have hword : r = respWord c 0x00#8 := (Option.some.inj hr).symm
  exact ⟨raise_eq_of_respWord c s hword, hword ▸ respWord_mem_of_ne_ok hok⟩

/-! ## An idle core waits -/

/-- Settles O12: with no command and no reset presented the step is a micro-step, which does nothing on an idle core. -/
theorem idleCoreKeepsItsState : Obligations.IdleCoreKeepsItsState := by
  refine fun s hp => ⟨fun hi => ?_, fun rest hi => ?_⟩
  · rw [step_of_nil hi, microStep_idle (s := consume [] s) hp, consume, ← hi]
  · rw [step_of_quiet hi, microStep_idle (s := consume rest s) hp, consume]

end Sys2Proof.Machine
end

section
/-! PROOFS. Reset (70_reset_and_hazards.md): the step with reset asserted, from any state and phase (R200, R202). -/

namespace Sys2Proof.Machine

open Sys2Proof

/-- Settles O10: the step is the reset event whatever PHASE is, and but for the later events its state is the reset state
of the same capacity, whose register values are O11's. -/
theorem stepResetsInAnyPhase : Obligations.StepResetsInAnyPhase := by
  intro s rest hi
  obtain ⟨hk, hv, hsum, hrc, hphase, hkpos, hkacc, hkvalid, hlen, hrp, hbidx, hpaderr, hovf, hill, hseqerr, hbuf, hresp, -⟩ :=
    resetValues s.cfg
  exact ⟨applyReset rest s, step_of_reset hi, hk, hv, hsum, hrc, hphase, hkpos, hkacc, hkvalid, hlen, hrp, hbidx, hpaderr,
    hovf, hill, hseqerr, hbuf, hresp, rfl, rfl⟩

end Sys2Proof.Machine
end
